-- ==== Sys2Proof/Word.lean ====
section
/-! DEFINITION. The machine word and the two ranges of the spec (00_scope.md R7, R8). -/

namespace Sys2Proof

/-- A word: "a signed integer in the range `[WORD_MIN, WORD_MAX]`" (R7), held as the 64 bits of its
two's complement (D28; log entry 8). Its value as the spec's integer is `toInt`; every word has exactly one. -/
abbrev Word := BitVec 64

/-- `WORD_MIN = -2^63` (R7). -/
def wordMin : Int := -9223372036854775808

/-- `WORD_MAX = 2^63 - 1` (R7). -/
def wordMax : Int := 9223372036854775807

/-- `ADDR_MAX = WORD_MAX = 2^63 - 1` (R8). -/
def addrMax : Nat := 9223372036854775807

/-- The exact integer `x` is a word (R7). -/
abbrev IsWord (x : Int) : Prop := wordMin ≤ x ∧ x ≤ wordMax

/-- The exact integer `x` is an address (R8). -/
abbrev IsAddress (x : Int) : Prop := 0 ≤ x ∧ x ≤ addrMax

end Sys2Proof
end

