-- ==== Sys2Proof/Config.lean ====
section
/-! DEFINITION. The implementation parameters of 00_scope.md section 3 (R9 to R12). The spec leaves them open and a
model takes them as an argument (92_eei_decisions.md); here they are plain data, carried by `State.cfg`
(log entry 1). There is no free value: 93_implementation_defined.md says "the spec leaves no result free". -/

namespace Sys2Proof

/-- A capacity: `unbounded` (the default) or a natural number (R9, R10). -/
inductive Capacity where
  | unbounded
  | finite (c : Nat)
deriving DecidableEq, Repr

/-- What a result outside the word range does (R11, R125). -/
inductive OverflowMode where
  | fault
  | wrap
deriving DecidableEq, Repr

/-- What the decoder does with non-zero digits above the last mode digit (R12, R77). -/
inductive HighDigitsMode where
  | fault
  | ignore
deriving DecidableEq, Repr

/-- The parameters of one implementation (R9 to R12). -/
structure Config where
  memCapacity : Capacity
  iqCapacity  : Capacity
  oqCapacity  : Capacity
  overflow    : OverflowMode
  highDigits  : HighDigitsMode
deriving DecidableEq, Repr

/-- The defaults of the parameter summary of 00_scope.md section 3. -/
def Config.default : Config where
  memCapacity := .unbounded
  iqCapacity  := .unbounded
  oqCapacity  := .unbounded
  overflow    := .fault
  highDigits  := .fault

end Sys2Proof
end

