-- ==== Sys2Proof/Syntax.lean ====
section
/-! DEFINITION. Instructions as data: one constructor of `Instr` per row of spec/opcode_table.json (30_encoding.md R72),
with its operands written as 30_encoding.md R87 writes them. -/

namespace Sys2Proof

/-- The three addressing modes (R75). -/
inductive Mode where
  /-- mode 0 -/
  | positional
  /-- mode 1 -/
  | immediate
  /-- mode 2 -/
  | relative
deriving DecidableEq, Repr

/-- An operand: its mode and its operand word `p_i`, used whole (R80 to R82). -/
inductive Operand where
  /-- `[p]`: the operand word is an address. -/
  | positional (p : Word)
  /-- `#p`: the operand word is the value. -/
  | immediate (p : Word)
  /-- `[rb+p]`: the operand word plus `rb` is an address. -/
  | relative (p : Word)
deriving DecidableEq, Repr

/-- The ten instructions (R72). `a`, `b`, `c` and `t` are sources and `d` is a destination. -/
inductive Instr where
  | add (a b d : Operand)
  | mul (a b d : Operand)
  | inp (d : Operand)
  | out (a : Operand)
  | jt (c t : Operand)
  | jf (c t : Operand)
  | lt (a b d : Operand)
  | eq (a b d : Operand)
  | arb (a : Operand)
  | hlt
deriving DecidableEq, Repr

/-- The one-operand operations of format F1 (R71). -/
inductive OpF1 where
  | inp
  | out
  | arb
deriving DecidableEq, Repr

/-- The two-operand operations of format F2 (R71). -/
inductive OpF2 where
  | jt
  | jf
deriving DecidableEq, Repr

/-- The three-operand operations of format F3 (R71). -/
inductive OpF3 where
  | add
  | mul
  | lt
  | eq
deriving DecidableEq, Repr

/-- A recognised opcode, by format (R71, R72). -/
inductive Opcode where
  | f0
  | f1 (op : OpF1)
  | f2 (op : OpF2)
  | f3 (op : OpF3)
deriving DecidableEq, Repr

/-- What `Decode(w)` returns: the operation and the mode of each operand it has (R79). -/
inductive Shape where
  | f0
  | f1 (op : OpF1) (m0 : Mode)
  | f2 (op : OpF2) (m0 m1 : Mode)
  | f3 (op : OpF3) (m0 m1 m2 : Mode)
deriving DecidableEq, Repr

/-- The index of an operand, 0 to 2 (10_state.md R26). -/
abbrev OperandIndex := Fin 3

end Sys2Proof
end

