-- ==== Sys2Proof/WellFormed.lean ====
section
/-! DEFINITION. Which instructions an assembler accepts: "writes to an output operand always use positional or relative
mode" (30_encoding.md R78, R88). Every other operand may have any mode and any word. -/

namespace Sys2Proof

/-- An operand that may be written through: not immediate (R78). -/
def Operand.isDestination : Operand → Bool
  | .positional _ => true
  | .immediate _  => false
  | .relative _   => true

/-- The destination operand of an instruction that has one, with its index (R78): operand 2 of ADD, MUL, LT and EQ,
operand 0 of IN. -/
def Instr.destination : Instr → Option (OperandIndex × Operand)
  | .add _ _ d => some (2, d)
  | .mul _ _ d => some (2, d)
  | .inp d     => some (0, d)
  | .out _     => none
  | .jt _ _    => none
  | .jf _ _    => none
  | .lt _ _ d  => some (2, d)
  | .eq _ _ d  => some (2, d)
  | .arb _     => none
  | .hlt       => none

/-- A well-formed instruction: its destination, if it has one, is not immediate. -/
def Instr.wf (i : Instr) : Bool :=
  match i.destination with
  | some (_, d) => d.isDestination
  | none        => true

end Sys2Proof
end

