-- ==== Sys2Proof/Decode.lean ====
section
/-! DEFINITION. The decoder and the encoder (30_encoding.md). Encoding is decimal: there are no bit fields. The decoder is
a total function from any word to a decoded instruction or one named fault (R79). -/

namespace Sys2Proof

/-! ## Decimal fields (00_scope.md R14) -/

/-- `digit(w, k)`, counted from 0 at the least significant digit. -/
def digit (w k : Nat) : Nat := w / 10 ^ k % 10

/-- `high(w, k)`: the value of all digits from position `k` upward. -/
def high (w k : Nat) : Nat := w / 10 ^ k

/-! ## Opcodes and modes (R72, R75) -/

/-- The opcode map (R72). -/
def Opcode.ofCode : Nat → Option Opcode
  | 1  => some (.f3 .add)
  | 2  => some (.f3 .mul)
  | 3  => some (.f1 .inp)
  | 4  => some (.f1 .out)
  | 5  => some (.f2 .jt)
  | 6  => some (.f2 .jf)
  | 7  => some (.f3 .lt)
  | 8  => some (.f3 .eq)
  | 9  => some (.f1 .arb)
  | 99 => some .f0
  | _  => none

/-- The number of an opcode (R72). -/
def Opcode.code : Opcode → Nat
  | .f3 .add => 1
  | .f3 .mul => 2
  | .f1 .inp => 3
  | .f1 .out => 4
  | .f2 .jt  => 5
  | .f2 .jf  => 6
  | .f3 .lt  => 7
  | .f3 .eq  => 8
  | .f1 .arb => 9
  | .f0      => 99

/-- `NOPS(op)`, the operand count of an opcode (R72). -/
def Opcode.operandCount : Opcode → Nat
  | .f0   => 0
  | .f1 _ => 1
  | .f2 _ => 2
  | .f3 _ => 3

/-- The mode a mode digit names, if it names one (R75, R76). -/
def Mode.ofDigit : Nat → Option Mode
  | 0 => some .positional
  | 1 => some .immediate
  | 2 => some .relative
  | _ => none

/-- The digit of a mode (R75). -/
def Mode.toDigit : Mode → Nat
  | .positional => 0
  | .immediate  => 1
  | .relative   => 2

/-- The operand a mode makes of an operand word (R80, R82). -/
def Mode.operand : Mode → Word → Operand
  | .positional, p => .positional p
  | .immediate, p  => .immediate p
  | .relative, p   => .relative p

/-- The mode of an operand. -/
def Operand.mode : Operand → Mode
  | .positional _ => .positional
  | .immediate _  => .immediate
  | .relative _   => .relative

/-- The operand word of an operand. -/
def Operand.word : Operand → Word
  | .positional p => p
  | .immediate p  => p
  | .relative p   => p

/-! ## Decoding an instruction word (R73 to R79) -/

/-- Why the decoder rejects a word, with what its fault record holds beside `pc` and `word` (60_exceptions.md R181,
causes 1 to 4). -/
inductive DecodeError where
  /-- negative word, or an opcode that is not recognised (R73, R74) -/
  | invalidOpcode
  /-- the mode digit of an existing operand is not 0, 1 or 2 (R76) -/
  | invalidMode (i : OperandIndex) (d : Nat)
  /-- a digit above the last mode digit is not 0 (R77) -/
  | highDigits (h : Nat)
  /-- the destination operand has mode 1 (R78) -/
  | immediateDestination (i : OperandIndex)
deriving DecidableEq, Repr

/-- The mode of operand `i`, from digit `2 + i` (R75, R76). -/
def decodeMode (w : Nat) (i : OperandIndex) : Except DecodeError Mode :=
  match Mode.ofDigit (digit w (2 + i.val)) with
  | some m => .ok m
  | none   => .error (.invalidMode i (digit w (2 + i.val)))

/-- The check on the digits above the last mode digit of an opcode with `n` operands (R77). -/
def checkHighDigits (hm : HighDigitsMode) (w n : Nat) : Except DecodeError Unit :=
  match hm with
  | .ignore => .ok ()
  | .fault  => if high w (2 + n) = 0 then .ok () else .error (.highDigits (high w (2 + n)))

/-- The check on a destination operand's mode (R78). -/
def checkDestinationMode (i : OperandIndex) : Mode → Except DecodeError Unit
  | .positional => .ok ()
  | .immediate  => .error (.immediateDestination i)
  | .relative   => .ok ()

/-- Which operand of a one-operand operation is a destination: IN's (R72). -/
def checkDestinationF1 (op : OpF1) (m0 : Mode) : Except DecodeError Unit :=
  match op with
  | .inp => checkDestinationMode 0 m0
  | .out => .ok ()
  | .arb => .ok ()

/-- The modes and checks of one opcode, in the order of R79. -/
def decodeShape (hm : HighDigitsMode) (w : Nat) : Opcode → Except DecodeError Shape
  | .f0 => do
    checkHighDigits hm w 0
    .ok .f0
  | .f1 op => do
    let m0 ← decodeMode w 0
    checkHighDigits hm w 1
    checkDestinationF1 op m0
    .ok (.f1 op m0)
  | .f2 op => do
    let m0 ← decodeMode w 0
    let m1 ← decodeMode w 1
    checkHighDigits hm w 2
    .ok (.f2 op m0 m1)
  | .f3 op => do
    let m0 ← decodeMode w 0
    let m1 ← decodeMode w 1
    let m2 ← decodeMode w 2
    checkHighDigits hm w 3
    checkDestinationMode 2 m2
    .ok (.f3 op m0 m1 m2)

/-- `Decode(w)` (R79): every check in the spec's order, the first that fails deciding. -/
def decodeWord (hm : HighDigitsMode) (w : Word) : Except DecodeError Shape :=
  if w.toInt < 0 then .error .invalidOpcode
  else
    match Opcode.ofCode (w.toInt.toNat % 100) with
    | none    => .error .invalidOpcode
    | some op => decodeShape hm w.toInt.toNat op

/-! ## Whole instructions (R70, R71) -/

/-- The opcode of a decoded word. -/
def Shape.opcode : Shape → Opcode
  | .f0          => .f0
  | .f1 op _     => .f1 op
  | .f2 op _ _   => .f2 op
  | .f3 op _ _ _ => .f3 op

/-- The operand count of a decoded word (R72). -/
def Shape.operandCount (sh : Shape) : Nat := sh.opcode.operandCount

/-- The one-operand instruction of an operation. -/
def OpF1.instr : OpF1 → Operand → Instr
  | .inp, d => .inp d
  | .out, a => .out a
  | .arb, a => .arb a

/-- The two-operand instruction of an operation: operand 0 is the condition, operand 1 the target (R72). -/
def OpF2.instr : OpF2 → Operand → Operand → Instr
  | .jt, c, t => .jt c t
  | .jf, c, t => .jf c t

/-- The three-operand instruction of an operation: operands 0 and 1 are sources, operand 2 the destination (R72). -/
def OpF3.instr : OpF3 → Operand → Operand → Operand → Instr
  | .add, a, b, d => .add a b d
  | .mul, a, b, d => .mul a b d
  | .lt, a, b, d  => .lt a b d
  | .eq, a, b, d  => .eq a b d

/-- The instruction a decoded word makes with its operand words `p_0 .. p_(n-1)`; words beyond those are not looked at,
and the callers below never give fewer. -/
def Shape.instr (sh : Shape) (ps : List Word) : Instr :=
  match sh with
  | .f0             => .hlt
  | .f1 op m0       => op.instr (m0.operand (ps.getD 0 0))
  | .f2 op m0 m1    => op.instr (m0.operand (ps.getD 0 0)) (m1.operand (ps.getD 1 0))
  | .f3 op m0 m1 m2 => op.instr (m0.operand (ps.getD 0 0)) (m1.operand (ps.getD 1 0)) (m2.operand (ps.getD 2 0))

/-- Why a list of words does not begin with an instruction. -/
inductive Rejection where
  /-- the decoder rejects the first word (R79) -/
  | malformed (e : DecodeError)
  /-- the list ends before the instruction does; the machine's memory never does this (20_memory.md R51) -/
  | truncated
deriving DecidableEq, Repr

/-- The instruction at the front of a list of words, with the words after it (R70). Total on any list. -/
def decode (hm : HighDigitsMode) : List Word → Except Rejection (Instr × List Word)
  | []      => .error .truncated
  | w :: ws =>
    match decodeWord hm w with
    | .error e => .error (.malformed e)
    | .ok sh   =>
      if sh.operandCount ≤ ws.length then .ok (sh.instr ws, ws.drop sh.operandCount)
      else .error .truncated

/-! ## Encoding (R88) -/

/-- The opcode of an instruction. -/
def Instr.opcode : Instr → Opcode
  | .add _ _ _ => .f3 .add
  | .mul _ _ _ => .f3 .mul
  | .inp _     => .f1 .inp
  | .out _     => .f1 .out
  | .jt _ _    => .f2 .jt
  | .jf _ _    => .f2 .jf
  | .lt _ _ _  => .f3 .lt
  | .eq _ _ _  => .f3 .eq
  | .arb _     => .f1 .arb
  | .hlt       => .f0

/-- The operands of an instruction, in operand order. -/
def Instr.operands : Instr → List Operand
  | .add a b d => [a, b, d]
  | .mul a b d => [a, b, d]
  | .inp d     => [d]
  | .out a     => [a]
  | .jt c t    => [c, t]
  | .jf c t    => [c, t]
  | .lt a b d  => [a, b, d]
  | .eq a b d  => [a, b, d]
  | .arb a     => [a]
  | .hlt       => []

/-- The length of an instruction in words: "1 + operand count" (R70). -/
def Instr.length (i : Instr) : Nat := 1 + i.opcode.operandCount

/-- The mode digits of operands 0, 1, ... as a number: `m_0 + 10*m_1 + 100*m_2` (R88; 0 for an absent operand). -/
def modeNumber : List Operand → Nat
  | []      => 0
  | o :: os => o.mode.toDigit + 10 * modeNumber os

/-- The instruction word `OP + 100*m_0 + 1000*m_1 + 10000*m_2` (R88). -/
def Instr.wordNumber (i : Instr) : Nat := i.opcode.code + 100 * modeNumber i.operands

/-- The words of an instruction: its instruction word, then its operand words (R88). -/
def encode (i : Instr) : List Word := BitVec.ofNat 64 i.wordNumber :: i.operands.map Operand.word

/-! ## The host's question: an instruction given by its bits -/

/-- Word `k` of an instruction given as one number, bit 0 the least significant bit of the FIRST word, each later
word's 64 bits counting on from it. -/
def tableWord (w k : Nat) : Word := BitVec.ofNat 64 (w / 2 ^ (64 * k))

/-- The words of the longest instruction (four, R70), read from the low `nbits` bits of `w`; every bit above is 0. -/
def tableWords (nbits w : Nat) : List Word :=
  [tableWord (w % 2 ^ nbits) 0, tableWord (w % 2 ^ nbits) 1, tableWord (w % 2 ^ nbits) 2, tableWord (w % 2 ^ nbits) 3]

/-- The instruction the decoder, with the default parameters, reads from an instruction whose bits are `w`. -/
def decodeTableWord (nbits w : Nat) : Option Instr :=
  match decode Config.default.highDigits (tableWords nbits w) with
  | .ok (i, _) => some i
  | .error _   => none

end Sys2Proof
end

