-- ==== Sys2Proof/Machine/State.lean ====
section
/-! DEFINITION. The engine's state as plain data (10_state.md): every element of its inventory, and the parameters of
00_scope.md section 3. -/

namespace Sys2Proof.Machine

/-- The run status; its five values (10_state.md R24). -/
inductive Status where
  /-- constructed or reset, not yet started -/
  | ready
  /-- actively executing, or the last STEP completed an ordinary instruction -/
  | running
  /-- the last step was an IN that found `IQ` empty -/
  | waitingForInput
  /-- an HLT has executed -/
  | halted
  /-- a fatal error occurred -/
  | faulted
deriving DecidableEq, Repr

/-- The fault causes (60_exceptions.md R181). -/
inductive Cause where
  | invalidOpcode
  | invalidMode
  | highDigits
  | immediateDestination
  | negativeAddress
  | addressOverflow
  | arithmeticOverflow
  | memoryCapacity
  | outputQueueFull
  | usageAfterHalt
deriving DecidableEq, Repr

/-- What a check that fails says about the fault: its cause, the operand it concerns and the offending value. The
fault's `pc` and `word` are added when the fault is taken (R181). -/
structure Trap where
  cause   : Cause
  operand : Option OperandIndex
  value   : Option Int
deriving DecidableEq, Repr

/-- The fault record `(cause, pc, word, operand, value)` (10_state.md R26). -/
structure FaultRecord where
  cause   : Cause
  pc      : Nat
  word    : Option Word
  operand : Option OperandIndex
  value   : Option Int
deriving DecidableEq, Repr

/-- One listed memory cell: an address and the word it holds. The unit of memory is the word (20_memory.md R45, R53), so
a cell is not a byte (log entry 2). -/
abbrev Cell := Nat × Word

/-- The memory, a total map from addresses to words (10_state.md R29), as the list of the cells that do not hold 0,
addresses strictly rising; an unlisted address reads as 0 (R46, R51). -/
abbrev Memory := List Cell

/-- The state of one engine (10_state.md section 1). -/
@[ext]
structure State where
  /-- the parameters; no step and no command changes them (R9 to R12, R35; log entry 1) -/
  cfg    : Config
  /-- the program counter, an address (R21); that it is one is part of the invariant `State.Inv` -/
  pc     : Nat
  /-- the relative base, any word (R23) -/
  rb     : Word
  /-- the run status (R24) -/
  status : Status
  /-- the fault record (R26) -/
  fault  : Option FaultRecord
  /-- the input queue, front first (R27) -/
  iq     : List Word
  /-- the output queue, front first (R28) -/
  oq     : List Word
  /-- the memory (R29) -/
  mem    : Memory
deriving DecidableEq, Repr

/-- Why the MODEL stops. None of the spec's own faults is here: the spec describes what each does to the state
(60_exceptions.md R182), so each is a next state with status Faulted. -/
inductive Fault where
  /-- Raised by `step` alone, when `pc` lies outside the address space. 10_state.md R36 (a) says that no state between
  commands has such a `pc`, so no run reaches it. Safe: the model stops where the spec says nothing (log entry 3). -/
  | pcOutsideAddressSpace (pc : Nat)
deriving DecidableEq, Repr

/-- Why a step is refused. -/
inductive Refusal where
  /-- An instruction that has no meaning yet: raised by `exec`'s arms alone. Safe: nothing can be proved about it. -/
  | notModelled (mnemonic : String)
  /-- Raised by `step` when the status is Faulted: "STEP is refused. It changes no state" (40_execution_cycle.md R101,
  ENGINE_FAULTED of 49_host_interface.md R151). Safe: it is the spec's own refusal. -/
  | engineFaulted
deriving DecidableEq, Repr

/-- The engine right after reset (70_reset_and_hazards.md R200), with the default parameters and the empty program image,
which the reset accepts (20_memory.md R46); a program comes in by the RESET command (log entry 4). -/
def State.reset : State where
  cfg    := Config.default
  pc     := 0
  rb     := 0
  status := .ready
  fault  := none
  iq     := []
  oq     := []
  mem    := []

end Sys2Proof.Machine
end

