-- ==== Sys2Proof/Machine/Ops.lean ====
section
/-! DEFINITION. The named operations over memory, queues and registers that the instructions share, the taking of a fault
and the reset that alone leaves it. -/

namespace Sys2Proof.Machine

/-- What a step or a meaning answers. -/
abbrev Result := Host.Outcome State Fault Refusal

/-! ## Memory (20_memory.md) -/

/-- `MemRead(a, 1)`: the word last written at `a`, else 0 (R47, R51). -/
def Memory.read : Memory → Nat → Word
  | [], _          => 0
  | (b, u) :: m, a => if a = b then u else Memory.read m a

/-- `MemWrite(a, 1, v)` on the bare memory (R48), keeping the canonical form: writing 0 unlists the cell. -/
def Memory.write : Memory → Nat → Word → Memory
  | [], a, v          => if v = 0 then [] else [(a, v)]
  | (b, u) :: m, a, v =>
    if a < b then (if v = 0 then (b, u) :: m else (a, v) :: (b, u) :: m)
    else if a = b then (if v = 0 then m else (a, v) :: m)
    else (b, u) :: Memory.write m a v

/-- The canonical form of a memory: addresses strictly rising, every address in the address space (R45), and no cell
listed with the word an unlisted address reads as. -/
abbrev Memory.wf (m : Memory) : Prop :=
  m.Pairwise (fun c d => c.1 < d.1) ∧ ∀ c ∈ m, c.1 ≤ addrMax ∧ c.2 ≠ 0

/-- The memory that holds `vs` at `a, a+1, ...` and 0 everywhere else (R46). -/
def Memory.ofWords (a : Nat) : List Word → Memory
  | []      => []
  | v :: vs => if v = 0 then Memory.ofWords (a + 1) vs else (a, v) :: Memory.ofWords (a + 1) vs

/-- The `n` words at `a, a+1, ...`. -/
def Memory.readWords (m : Memory) (a : Nat) : Nat → List Word
  | 0     => []
  | n + 1 => m.read a :: Memory.readWords m (a + 1) n

/-- Write `vs` at `a, a+1, ...`, as far as those are addresses. -/
def Memory.writeWords (m : Memory) (a : Nat) : List Word → Memory
  | []      => m
  | v :: vs => Memory.writeWords (if a ≤ addrMax then m.write a v else m) (a + 1) vs

/-! ## Capacities (00_scope.md R9, R10) -/

/-- A store or queue of this capacity may hold `n` things. -/
def admits (c : Capacity) (n : Nat) : Bool :=
  match c with
  | .unbounded => true
  | .finite k  => n ≤ k

/-! ## Register and queue updates -/

/-- The end of an ordinary step: the next `pc`, and status Running (40_execution_cycle.md R106, R109). -/
def State.advance (s : State) (pc : Nat) : State := { s with pc := pc, status := .running }

/-- Replace the memory. -/
def State.setMem (s : State) (m : Memory) : State := { s with mem := m }

/-- Replace the relative base. -/
def State.setRb (s : State) (v : Word) : State := { s with rb := v }

/-- Replace the input queue. -/
def State.setIq (s : State) (q : List Word) : State := { s with iq := q }

/-- Replace the output queue. -/
def State.setOq (s : State) (q : List Word) : State := { s with oq := q }

/-- Replace the status and nothing else: HLT and a suspending IN (R109). -/
def State.setStatus (s : State) (st : Status) : State := { s with status := st }

/-! ## Checks that may fail -/

/-- `CheckAddr(x, i)` (20_memory.md R50). -/
def checkAddr (x : Int) (i : Option OperandIndex) : Except Trap Nat :=
  if x < 0 then .error ⟨.negativeAddress, i, some x⟩
  else if (addrMax : Int) < x then .error ⟨.addressOverflow, i, some x⟩
  else .ok x.toNat

/-- The `pc` after a step that falls through an instruction of `len` words (40_execution_cycle.md R105). -/
def fallThrough (s : State) (len : Nat) : Except Trap Nat := checkAddr ((s.pc : Int) + len) none

/-- `MemWrite(ea, 1, v)` for operand `i` of a step (20_memory.md R48, R52). -/
def storeWord (s : State) (i : OperandIndex) (ea : Nat) (v : Word) : Except Trap Memory :=
  if admits s.cfg.memCapacity (ea + 1) then .ok (s.mem.write ea v)
  else .error ⟨.memoryCapacity, some i, some ea⟩

/-- `push_back(OQ, v)` of a step (42_io.md R131, R133). -/
def pushOutput (s : State) (v : Word) : Except Trap (List Word) :=
  if admits s.cfg.oqCapacity (s.oq.length + 1) then .ok (s.oq ++ [v])
  else .error ⟨.outputQueueFull, none, none⟩

/-! ## Taking a fault, and leaving it -/

/-- Fault entry (60_exceptions.md R182; `raise`, 00_scope.md R18): status Faulted and the record, and no other change.
`word` is the fetched instruction word, or none for USAGE_AFTER_HALT (10_state.md R26; log entry 11). -/
def takeFault (s : State) (word : Option Word) (t : Trap) : State :=
  { s with status := .faulted, fault := some ⟨t.cause, s.pc, word, t.operand, t.value⟩ }

/-- A fault raised while the instruction at `pc` executes: its record holds "the instruction word fetched at `pc`"
(10_state.md R26). -/
def raiseFault (s : State) (t : Trap) : State := takeFault s (some (s.mem.read s.pc)) t

/-- STEP or RUN on a Halted engine (40_execution_cycle.md R101, R110). -/
def usageAfterHalt (s : State) : State := takeFault s none ⟨.usageAfterHalt, none, none⟩

/-- `RESET(P)` with a valid image (70_reset_and_hazards.md R200), the only way out of Faulted (60_exceptions.md R184).
The parameters are not state and stay. -/
def resetWith (s : State) (image : List Word) : State where
  cfg    := s.cfg
  pc     := 0
  rb     := 0
  status := .ready
  fault  := none
  iq     := []
  oq     := []
  mem    := Memory.ofWords 0 image

/-- The end of an instruction: its effects commit together, or its fault is taken with none of them
(40_execution_cycle.md R106). -/
def commit (s : State) (r : Except Trap State) : Result :=
  match r with
  | .ok t    => .next t
  | .error e => .next (raiseFault s e)

end Sys2Proof.Machine
end

