-- ==== Sys2Proof/Machine/Flags.lean ====
section
/-! DEFINITION. Results of arithmetic and comparison. The engine has NO flags, condition codes or predicate registers
(10_state.md R32): an overflow is a fault or a wrap (41_arithmetic.md R125), and a comparison's result is a word
(44_compare.md). -/

namespace Sys2Proof.Machine

/-- `WordResult(x)` of an exact integer (R125). -/
def wordResult (om : OverflowMode) (x : Int) : Except Trap Word :=
  if wordMin ≤ x ∧ x ≤ wordMax then .ok (BitVec.ofInt 64 x)
  else
    match om with
    | .fault => .error ⟨.arithmeticOverflow, none, some x⟩
    | .wrap  => .ok (BitVec.ofInt 64 ((x - wordMin) % 18446744073709551616 + wordMin))

/-- The result of a comparison: exactly 1 or 0 (R140, R141). -/
def conditionWord (b : Bool) : Word := if b then 1 else 0

end Sys2Proof.Machine
end

