-- ==== Sys2Proof/Machine/Operands.lean ====
section
/-! DEFINITION. Operand resolution (30_encoding.md R80, R81), in ascending operand order (40_execution_cycle.md R107). -/

namespace Sys2Proof.Machine

/-- `ResolveSrc(i)`: the effective value of a source operand (R80); the sum `rb + p_i` is exact. -/
def resolveSrc (s : State) (i : OperandIndex) : Operand → Except Trap Word
  | .positional p => do
    let a ← checkAddr p.toInt (some i)
    .ok (s.mem.read a)
  | .immediate p  => .ok p
  | .relative p   => do
    let a ← checkAddr (s.rb.toInt + p.toInt) (some i)
    .ok (s.mem.read a)

/-- The fault of an immediate destination (R78). -/
def immediateDestination (i : OperandIndex) : Trap := ⟨.immediateDestination, some i, none⟩

/-- The decoder's destination check, repeated for an instruction that no decoder made (R78, R79): it comes before any
operand is resolved. -/
def checkDestination (i : OperandIndex) (d : Operand) : Except Trap Unit :=
  if d.isDestination then .ok () else .error (immediateDestination i)

/-- `ResolveDst(d)`: the effective address of a destination operand, which is never read (R81). -/
def resolveDst (s : State) (i : OperandIndex) : Operand → Except Trap Nat
  | .positional p => checkAddr p.toInt (some i)
  | .immediate _  => .error (immediateDestination i)
  | .relative p   => checkAddr (s.rb.toInt + p.toInt) (some i)

/-- The three-operand instructions of format F3: resolve `a`, `b` and the destination, compute the result from the two
values, write it, and go on four words further (41_arithmetic.md R126, 40_execution_cycle.md R108). -/
def storeBinary (s : State) (a b d : Operand) (f : Word → Word → Except Trap Word) : Except Trap State := do
  checkDestination 2 d
  let x ← resolveSrc s 0 a
  let y ← resolveSrc s 1 b
  let ea ← resolveDst s 2 d
  let r ← f x y
  let m ← storeWord s 2 ea r
  let pc ← fallThrough s 4
  .ok ((s.setMem m).advance pc)

/-- The jumps of format F2: resolve the condition and the target, which is resolved even when it is not taken
(40_execution_cycle.md R107); a taken jump checks that its target is not negative (43_branch.md R135). -/
def jumpWhen (s : State) (c t : Operand) (taken : Word → Bool) : Except Trap State := do
  let x ← resolveSrc s 0 c
  let y ← resolveSrc s 1 t
  if taken x then do
    let pc ← checkAddr y.toInt (some 1)
    .ok (s.advance pc)
  else do
    let pc ← fallThrough s 3
    .ok (s.advance pc)

end Sys2Proof.Machine
end

