-- ==== Sys2Proof/Machine/Arithmetic.lean ====
section
/-! DEFINITION. ADD and MUL (41_arithmetic.md). -/

namespace Sys2Proof.Machine

/-- ADD (R126): `M[ea] <- WordResult(a + b)`. -/
def execAdd (a b d : Operand) (s : State) : Result :=
  commit s (storeBinary s a b d fun x y => wordResult s.cfg.overflow (x.toInt + y.toInt))

/-- MUL (R127): `M[ea] <- WordResult(a * b)`, the exact signed product. -/
def execMul (a b d : Operand) (s : State) : Result :=
  commit s (storeBinary s a b d fun x y => wordResult s.cfg.overflow (x.toInt * y.toInt))

end Sys2Proof.Machine
end

