-- ==== Sys2Proof/Machine/Branch.lean ====
section
/-! DEFINITION. JT and JF (43_branch.md). -/

namespace Sys2Proof.Machine

/-- JT (R135): jump to the target when the condition is not 0. -/
def execJt (c t : Operand) (s : State) : Result := commit s (jumpWhen s c t fun x => x ≠ 0)

/-- JF (R136): jump to the target when the condition is 0. -/
def execJf (c t : Operand) (s : State) : Result := commit s (jumpWhen s c t fun x => x = 0)

end Sys2Proof.Machine
end

