-- ==== Sys2Proof/Machine/Compare.lean ====
section
/-! DEFINITION. LT and EQ (44_compare.md). -/

namespace Sys2Proof.Machine

/-- LT (R140): `M[ea] <- 1` if `a < b` as signed integers, else 0. -/
def execLt (a b d : Operand) (s : State) : Result :=
  commit s (storeBinary s a b d fun x y => .ok (conditionWord (x.toInt < y.toInt)))

/-- EQ (R141): `M[ea] <- 1` if `a = b`, else 0. -/
def execEq (a b d : Operand) (s : State) : Result :=
  commit s (storeBinary s a b d fun x y => .ok (conditionWord (x = y)))

end Sys2Proof.Machine
end

