-- ==== Sys2Proof/Machine/InOut.lean ====
section
/-! DEFINITION. IN and OUT (42_io.md). -/

namespace Sys2Proof.Machine

/-- What IN commits (R130): the destination is resolved first (40_execution_cycle.md R108); then an empty input queue
suspends, changing the status alone, and otherwise the front value is popped into `M[ea]`. -/
def receive (s : State) (d : Operand) : Except Trap State := do
  checkDestination 0 d
  let ea ← resolveDst s 0 d
  match s.iq with
  | []      => .ok (s.setStatus .waitingForInput)
  | v :: vs => do
    let m ← storeWord s 0 ea v
    let pc ← fallThrough s 2
    .ok (((s.setIq vs).setMem m).advance pc)

/-- IN (R130). -/
def execInp (d : Operand) (s : State) : Result := commit s (receive s d)

/-- What OUT commits (R131): the source value pushed to the back of the output queue; a finite queue that is full
faults (R133). -/
def emit (s : State) (a : Operand) : Except Trap State := do
  let x ← resolveSrc s 0 a
  let q ← pushOutput s x
  let pc ← fallThrough s 2
  .ok ((s.setOq q).advance pc)

/-- OUT (R131). -/
def execOut (a : Operand) (s : State) : Result := commit s (emit s a)

end Sys2Proof.Machine
end

