-- ==== Sys2Proof/Machine/RelBaseHalt.lean ====
section
/-! DEFINITION. ARB and HLT (45_relbase_halt.md). -/

namespace Sys2Proof.Machine

/-- What ARB commits (R145): `rb <- WordResult(rb + a)`; a relative operand is read with the old `rb`. -/
def adjustBase (s : State) (a : Operand) : Except Trap State := do
  let x ← resolveSrc s 0 a
  let r ← wordResult s.cfg.overflow (s.rb.toInt + x.toInt)
  let pc ← fallThrough s 2
  .ok ((s.setRb r).advance pc)

/-- ARB (R145). -/
def execArb (a : Operand) (s : State) : Result := commit s (adjustBase s a)

/-- HLT (R146): the status becomes Halted; `pc` is unchanged and no next `pc` is checked. -/
def execHlt (s : State) : Result := commit s (.ok (s.setStatus .halted))

end Sys2Proof.Machine
end

