-- ==== Sys2Proof/Machine/Cycle.lean ====
section
/-! DEFINITION. The fetch-decode-execute cycle: one STEP (40_execution_cycle.md R101 to R109), and where a fetched
instruction stands. -/

namespace Sys2Proof.Machine

/-- The fault a decode error raises (60_exceptions.md R181, causes 1 to 4). -/
def decodeTrap : DecodeError → Trap
  | .invalidOpcode          => ⟨.invalidOpcode, none, none⟩
  | .invalidMode i d        => ⟨.invalidMode, some i, some d⟩
  | .highDigits h           => ⟨.highDigits, none, some h⟩
  | .immediateDestination i => immediateDestination i

/-- The operand words `p_i, p_(i+1), ...`, `n` of them, in ascending order, each address checked (R104). -/
def operandWords (s : State) (i : Nat) : Nat → Except Trap (List Word)
  | 0     => .ok []
  | n + 1 => do
    let a ← checkAddr ((s.pc : Int) + 1 + i) (some (Fin.ofNat 3 i))
    let ps ← operandWords s (i + 1) n
    .ok (s.mem.read a :: ps)

/-- Fetch the instruction at `pc`: the instruction word, its decoding, then its operand words (R102 to R104). -/
def fetch (s : State) : Except Trap Instr :=
  match decodeWord s.cfg.highDigits (s.mem.read s.pc) with
  | .error e => .error (decodeTrap e)
  | .ok sh   => do
    let ps ← operandWords s 0 sh.operandCount
    .ok (sh.instr ps)

/-- A step in a live status (10_state.md R25): the fetched instruction, or the fault of its fetch. A `pc` outside the
address space, which no run reaches (R36), stops the model by name (log entry 3). -/
def liveStep (s : State) : Result :=
  if s.pc ≤ addrMax then
    match fetch s with
    | .error t => .next (raiseFault s t)
    | .ok i    => exec i s
  else .fault (.pcOutsideAddressSpace s.pc)

/-- STEP (R101): refused in Faulted, USAGE_AFTER_HALT in Halted, else one instruction attempt. -/
def cycle (s : State) : Result :=
  match s.status with
  | .ready           => liveStep s
  | .running         => liveStep s
  | .waitingForInput => liveStep s
  | .halted          => .next (usageAfterHalt s)
  | .faulted         => .refused .engineFaulted

/-- The state with an instruction given by its bits stored where the next step fetches: its four words at `pc` (as far
as those are addresses), and, because a Halted or Faulted engine fetches nothing, the status and record of a reset there
(log entry 4). -/
def placeInstruction (s : State) (nbits w : Nat) : State :=
  let t := s.setMem (s.mem.writeWords s.pc (tableWords nbits w))
  match s.status with
  | .ready           => t
  | .running         => t
  | .waitingForInput => t
  | .halted          => { t with status := .ready, fault := none }
  | .faulted         => { t with status := .ready, fault := none }

end Sys2Proof.Machine
end

