-- ==== Sys2Proof/Machine/Step.lean ====
section
/-! DEFINITION. One step of the machine: the STEP command (40_execution_cycle.md R101 to R109). -/

namespace Sys2Proof.Machine

/-- One step (R117): a total function of the state and the parameters. -/
def step (s : State) : Host.Outcome State Fault Refusal := cycle s

/-- The state in which the next step fetches and runs the instruction whose bits are `w`. -/
def State.withFetchWord (s : State) (nbits w : Nat) : State := placeInstruction s nbits w

end Sys2Proof.Machine
end

