-- ==== Sys2Proof/Machine/Assembler.lean ====
section
/-! DEFINITION. The spec's assembly language (30_encoding.md R87 to R89): its syntax, its three pseudo-instructions, and the
assembler from text to a program image. No rule of the engine depends on it (D23). Text is a list of characters. What
R87 leaves open of the text's form is log entry 6. -/

namespace Sys2Proof.Machine

/-! ## Pseudo-instructions (R89) -/

/-- `MOV s, d` is `ADD s, #0, d`. -/
def pseudoMov (s d : Operand) : Instr := .add s (.immediate 0) d

/-- `JMP t` is `JT #1, t`. -/
def pseudoJmp (t : Operand) : Instr := .jt (.immediate 1) t

/-- `NOP` is `JT #0, #0`. -/
def pseudoNop : Instr := .jt (.immediate 0) (.immediate 0)

/-! ## The language as data (R87) -/

/-- A label's name. -/
abbrev LabelName := List Char

/-- `n`: a signed decimal integer, or a label. -/
inductive AsmValue where
  | num (n : Int)
  | label (l : LabelName)
deriving DecidableEq, Repr

/-- An operand as it is written. -/
inductive AsmOperand where
  | positional (v : AsmValue)
  | immediate (v : AsmValue)
  | rbPlus (v : AsmValue)
  | rbMinus (v : AsmValue)
deriving DecidableEq, Repr

/-- A mnemonic: one of the ten (R72), or a pseudo-instruction (R89). -/
inductive AsmOp where
  | real (op : Opcode)
  | mov
  | jmp
  | nop
deriving DecidableEq, Repr

/-- What a line holds after its label. -/
inductive AsmStatement where
  | instr (op : AsmOp) (os : List AsmOperand)
  | words (vs : List AsmValue)
  | empty
deriving DecidableEq, Repr

/-- A line: a label, if it begins with one, and a statement. -/
structure AsmLine where
  label     : Option LabelName
  statement : AsmStatement
deriving DecidableEq, Repr

/-! ## Assembling -/

/-- A list of labels with the addresses they stand for. -/
abbrev LabelTable := List (LabelName × Nat)

/-- The address a label stands for, if it is defined. -/
def LabelTable.find : LabelTable → LabelName → Option Nat
  | [], _           => none
  | (k, a) :: t, l => if k = l then some a else LabelTable.find t l

/-- The number of operands a mnemonic takes (R72, R89). -/
def AsmOp.operandCount : AsmOp → Nat
  | .real op => op.operandCount
  | .mov     => 2
  | .jmp     => 1
  | .nop     => 0

/-- The length in words of the one instruction a mnemonic makes (R70, R89). -/
def AsmOp.length : AsmOp → Nat
  | .real op => 1 + op.operandCount
  | .mov     => 4
  | .jmp     => 3
  | .nop     => 3

/-- The length in words of a statement. -/
def AsmStatement.length : AsmStatement → Nat
  | .instr op _ => op.length
  | .words vs   => vs.length
  | .empty      => 0

/-- The labels of a program that begins at address `a`; a label defined twice is refused. -/
def collectLabels (a : Nat) : List AsmLine → Option LabelTable
  | []      => some []
  | l :: ls => do
    let t ← collectLabels (a + l.statement.length) ls
    match l.label with
    | none   => some t
    | some n => if (LabelTable.find t n).isSome then none else some ((n, a) :: t)

/-- The integer a value stands for: a label "stands for the address of the word after its colon". -/
def AsmValue.resolve (t : LabelTable) : AsmValue → Option Int
  | .num n   => some n
  | .label l => (LabelTable.find t l).map fun a => (a : Int)

/-- The word an integer is, if it is one (00_scope.md R7). -/
def toWord (x : Int) : Option Word :=
  if wordMin ≤ x ∧ x ≤ wordMax then some (BitVec.ofInt 64 x) else none

/-- An operand with its word (R88): `n` for `[n]` and `#n`, the signed offset for `[rb+n]` and `[rb-n]`. -/
def AsmOperand.resolve (t : LabelTable) : AsmOperand → Option Operand
  | .positional v => do
    let n ← v.resolve t
    (toWord n).map .positional
  | .immediate v  => do
    let n ← v.resolve t
    (toWord n).map .immediate
  | .rbPlus v     => do
    let n ← v.resolve t
    (toWord n).map .relative
  | .rbMinus v    => do
    let n ← v.resolve t
    (toWord (-n)).map .relative

/-- The instruction of a mnemonic and its operands, if their number is right. -/
def AsmOp.instr : AsmOp → List Operand → Option Instr
  | .real (.f3 op), [a, b, d] => some (op.instr a b d)
  | .real (.f2 op), [c, t]    => some (op.instr c t)
  | .real (.f1 op), [a]       => some (op.instr a)
  | .real .f0, []             => some .hlt
  | .mov, [s, d]              => some (pseudoMov s d)
  | .jmp, [t]                 => some (pseudoJmp t)
  | .nop, []                  => some pseudoNop
  | _, _                      => none

/-- The words of a statement. "An assembler refuses an immediate destination" (R88). -/
def AsmStatement.assemble (t : LabelTable) : AsmStatement → Option (List Word)
  | .instr op os => do
    let xs ← os.mapM (AsmOperand.resolve t)
    let i ← op.instr xs
    if i.wf then some (encode i) else none
  | .words vs    => vs.mapM fun v => (v.resolve t).bind toWord
  | .empty       => some []

/-- The program image of a list of lines, from address 0. -/
def assembleLines (ls : List AsmLine) : Option (List Word) := do
  let t ← collectLabels 0 ls
  let ws ← ls.mapM fun l => l.statement.assemble t
  some ws.flatten

/-! ## Reading the text -/

/-- A blank inside a line. -/
def isBlank (c : Char) : Bool := c = ' ' || c = '\t' || c = '\r'

/-- A text without the blanks around it. -/
def trim (cs : List Char) : List Char := ((cs.dropWhile isBlank).reverse.dropWhile isBlank).reverse

/-- The pieces of a text between the occurrences of a character. -/
def splitAtChar (c : Char) : List Char → List (List Char)
  | []      => [[]]
  | d :: ds =>
    if d = c then [] :: splitAtChar c ds
    else
      match splitAtChar c ds with
      | []      => [[d]]
      | p :: ps => (d :: p) :: ps

/-- A character of a label's name. -/
def isNameChar (c : Char) : Bool := c.isAlphanum || c = '_'

/-- A label's name: a letter or underscore, then letters, digits and underscores. -/
def isName : List Char → Bool
  | []      => false
  | c :: cs => isNameChar c && !c.isDigit && cs.all isNameChar

/-- A decimal natural number, continuing `acc`. -/
def readDigits (acc : Nat) : List Char → Option Nat
  | []      => some acc
  | c :: cs => if c.isDigit then readDigits (10 * acc + (c.toNat - 48)) cs else none

/-- A decimal natural number of at least one digit. -/
def readNat : List Char → Option Nat
  | []      => none
  | c :: cs => readDigits 0 (c :: cs)

/-- `n`: a signed decimal integer, or a label. -/
def readValue (cs : List Char) : Option AsmValue :=
  match cs with
  | '-' :: ds => (readNat (trim ds)).map fun n => .num (-(n : Int))
  | '+' :: ds => (readNat (trim ds)).map fun n => .num n
  | ds        => if isName ds then some (.label ds) else (readNat ds).map fun n => .num n

/-- What stands inside an operand's brackets: `rb`, `rb+n`, `rb-n` or `n`. -/
def readBracket (cs : List Char) : Option AsmOperand :=
  match cs with
  | 'r' :: 'b' :: ds =>
    match trim ds with
    | []        => some (.rbPlus (.num 0))
    | '+' :: es => (readValue (trim es)).map .rbPlus
    | '-' :: es => (readValue (trim es)).map .rbMinus
    | _         => (readValue cs).map .positional
  | _ => (readValue cs).map .positional

/-- An operand (R87). -/
def readOperand (cs : List Char) : Option AsmOperand :=
  match cs with
  | '#' :: ds => (readValue (trim ds)).map .immediate
  | '[' :: ds =>
    match ds.reverse with
    | ']' :: es => readBracket (trim es.reverse)
    | _         => none
  | _ => none

/-- The mnemonics (R72, R89). -/
def readMnemonic : List Char → Option AsmOp
  | ['A', 'D', 'D'] => some (.real (.f3 .add))
  | ['M', 'U', 'L'] => some (.real (.f3 .mul))
  | ['I', 'N']      => some (.real (.f1 .inp))
  | ['O', 'U', 'T'] => some (.real (.f1 .out))
  | ['J', 'T']      => some (.real (.f2 .jt))
  | ['J', 'F']      => some (.real (.f2 .jf))
  | ['L', 'T']      => some (.real (.f3 .lt))
  | ['E', 'Q']      => some (.real (.f3 .eq))
  | ['A', 'R', 'B'] => some (.real (.f1 .arb))
  | ['H', 'L', 'T'] => some (.real .f0)
  | ['M', 'O', 'V'] => some .mov
  | ['J', 'M', 'P'] => some .jmp
  | ['N', 'O', 'P'] => some .nop
  | _               => none

/-- The comma-separated pieces of a text, none for an empty text. -/
def commaPieces (cs : List Char) : List (List Char) :=
  match trim cs with
  | [] => []
  | ds => (splitAtChar ',' ds).map trim

/-- A statement: nothing, `.word v, v, ...`, or a mnemonic with its operands. R87 leaves two points open, which are the
model's choice (DESIGN CHOICE, log entry 6): a blank must stand between a mnemonic or `.word` and what follows it, so
`OUT[0]` and `OUT#5` are refused; and the values of `.word` may be none, which places no word. -/
def readStatement (cs : List Char) : Option AsmStatement :=
  match trim cs with
  | [] => some .empty
  | ds =>
    if ds.takeWhile (!isBlank ·) = ['.', 'w', 'o', 'r', 'd'] then
      ((commaPieces (ds.dropWhile (!isBlank ·))).mapM readValue).map .words
    else do
      let op ← readMnemonic (ds.takeWhile (!isBlank ·))
      let os ← (commaPieces (ds.dropWhile (!isBlank ·))).mapM readOperand
      some (.instr op os)

/-- A line: `;` starts a comment, and `name:` at its start is a label. -/
def readLine (cs : List Char) : Option AsmLine :=
  let code := trim (cs.takeWhile (· ≠ ';'))
  match code.dropWhile isNameChar with
  | ':' :: rest =>
    if isName (code.takeWhile isNameChar) then
      (readStatement rest).map fun st => ⟨some (code.takeWhile isNameChar), st⟩
    else none
  | _ => (readStatement code).map fun st => ⟨none, st⟩

/-- The program image of an assembly text (R87, R88). -/
def assemble (text : List Char) : Option (List Word) := do
  let ls ← (splitAtChar '\n' text).mapM readLine
  assembleLines ls

end Sys2Proof.Machine
end

