-- ==== Sys2Proof/Machine/HostInterface.lean ====
section
/-! DEFINITION. The host's commands (49_host_interface.md): what each does to the engine and what it responds. Each is one
atomic transaction (R150), so each is one function of the state. -/

namespace Sys2Proof.Machine

/-- Why a command is refused (R151). -/
inductive RefusalReason where
  | badAddress
  | badValue
  | badImage
  | iqFull
  | notAscii
  | memCapacity
  | engineFaulted
deriving DecidableEq, Repr

/-- The responses (R151). OBSERVE answers two values (R169), and a STEP refused with ENGINE_FAULTED comes "together with
the unchanged status and fault" (R165: `refusedFaulted`); a RUN so refused is `refused engineFaulted` alone, as R166 words
it (log entry 13). -/
inductive Response where
  | ok
  | value (v : Word)
  | nothing
  | notEnough
  | list (vs : List Word)
  | bool (b : Bool)
  | status (st : Status) (f : Option FaultRecord)
  | observed (pc : Nat) (rb : Word)
  | refused (r : RefusalReason)
  | refusedFaulted (st : Status) (f : Option FaultRecord)
deriving DecidableEq, Repr

/-- The commands (R151). Arguments are the integers and characters a host may send, words or not. -/
inductive Command where
  | reset (image : List Int)
  | push (v : Int)
  | pushSeq (vs : List Int)
  | pushAscii (s : List Char)
  | peekIn
  | popOut
  | popLast
  | popN (n : Int)
  | isHalted
  | getStatus
  | memPeek (a : Int)
  | memPoke (a v : Int)
  | step
  | run
  | observe
deriving DecidableEq, Repr

/-- What a command comes to. A RUN that never stops never responds (R166); a model that bounds it says that its fuel ran
out, "as its own outcome, distinct from every status" (40_execution_cycle.md R111). The last two are the model's own
stops of `step`. -/
inductive HostOutcome where
  | responded (r : Response) (s : State)
  | fuelExhausted (s : State)
  | stopped (f : Fault)
  | declined (r : Refusal)
deriving DecidableEq, Repr

/-- The numeric code of a status (10_state.md R24). -/
def Status.code : Status → Nat
  | .ready           => 0
  | .running         => 1
  | .waitingForInput => 2
  | .halted          => 3
  | .faulted         => 4

/-- The numeric code of a fault cause (60_exceptions.md R181). -/
def Cause.code : Cause → Nat
  | .invalidOpcode        => 1
  | .invalidMode          => 2
  | .highDigits           => 3
  | .immediateDestination => 4
  | .negativeAddress      => 5
  | .addressOverflow      => 6
  | .arithmeticOverflow   => 7
  | .memoryCapacity       => 8
  | .outputQueueFull      => 9
  | .usageAfterHalt       => 10

/-- The words that integers are, if every one is a word (00_scope.md R7). -/
def wordsOf : List Int → Option (List Word)
  | []      => some []
  | x :: xs =>
    if wordMin ≤ x ∧ x ≤ wordMax then (wordsOf xs).map (BitVec.ofInt 64 x :: ·) else none

/-- The ASCII codes of characters, if every one has one, 0 to 127 (R154; log entry 12). -/
def asciiCodes : List Char → Option (List Int)
  | []      => some []
  | c :: cs => if c.toNat ≤ 127 then (asciiCodes cs).map ((c.toNat : Int) :: ·) else none

/-- `RESET(P)` (R164, 20_memory.md R46). -/
def hostReset (image : List Int) (s : State) : Response × State :=
  match wordsOf image with
  | none    => (.refused .badImage, s)
  | some ws =>
    if ws.length ≤ addrMax + 1 ∧ admits s.cfg.memCapacity ws.length then (.ok, resetWith s ws)
    else (.refused .badImage, s)

/-- `PUSH_SEQ(v_1 .. v_k)`: all values or none (R153). -/
def hostPushSeq (vs : List Int) (s : State) : Response × State :=
  match wordsOf vs with
  | none    => (.refused .badValue, s)
  | some ws =>
    if admits s.cfg.iqCapacity (s.iq.length + ws.length) then (.ok, s.setIq (s.iq ++ ws)) else (.refused .iqFull, s)

/-- `PUSH(v)` (R152). -/
def hostPush (v : Int) (s : State) : Response × State := hostPushSeq [v] s

/-- `PUSH_ASCII(s)` (R154). -/
def hostPushAscii (cs : List Char) (s : State) : Response × State :=
  match asciiCodes cs with
  | none    => (.refused .notAscii, s)
  | some vs => hostPushSeq vs s

/-- `PEEK_IN` (R155). -/
def hostPeekIn (s : State) : Response × State :=
  match s.iq with
  | []     => (.nothing, s)
  | v :: _ => (.value v, s)

/-- `POP_OUT` (R156). -/
def hostPopOut (s : State) : Response × State :=
  match s.oq with
  | []      => (.nothing, s)
  | v :: vs => (.value v, s.setOq vs)

/-- `POP_LAST` (R157). -/
def hostPopLast (s : State) : Response × State :=
  match s.oq.getLast? with
  | none   => (.nothing, s)
  | some v => (.value v, s.setOq [])

/-- `POP_N(n)` (R158). -/
def hostPopN (n : Int) (s : State) : Response × State :=
  if n < 0 then (.refused .badValue, s)
  else if n.toNat ≤ s.oq.length then (.list (s.oq.take n.toNat), s.setOq (s.oq.drop n.toNat))
  else (.notEnough, s)

/-- `IS_HALTED` (R159). -/
def hostIsHalted (s : State) : Response × State := (.bool (s.status = .halted), s)

/-- `STATUS` (R160). -/
def hostStatus (s : State) : Response × State := (.status s.status s.fault, s)

/-- `MEM_PEEK(a)` (R161). -/
def hostMemPeek (a : Int) (s : State) : Response × State :=
  if 0 ≤ a ∧ a ≤ addrMax then (.value (s.mem.read a.toNat), s) else (.refused .badAddress, s)

/-- `MEM_POKE(a, v)` (R162); its refusals in the order in which the rule lists them (log entry 5). -/
def hostMemPoke (a v : Int) (s : State) : Response × State :=
  if 0 ≤ a ∧ a ≤ addrMax then
    if wordMin ≤ v ∧ v ≤ wordMax then
      if admits s.cfg.memCapacity (a.toNat + 1) then
        (.ok, s.setMem (s.mem.write a.toNat (BitVec.ofInt 64 v)))
      else (.refused .memCapacity, s)
    else (.refused .badValue, s)
  else (.refused .badAddress, s)

/-- `OBSERVE` (R169, 10_state.md R31). -/
def hostObserve (s : State) : Response × State := (.observed s.pc s.rb, s)

/-- What a STEP or RUN that stopped in `s` responds (R165, R166). -/
def respondStatus (s : State) : HostOutcome := .responded (.status s.status s.fault) s

/-- The refusal of a STEP in Faulted, with the unchanged status and fault (R165). -/
def respondFaulted (s : State) : HostOutcome := .responded (.refusedFaulted s.status s.fault) s

/-- `STEP` (R165). -/
def hostStep (s : State) : HostOutcome :=
  match s.status with
  | .faulted => respondFaulted s
  | _        =>
    match step s with
    | .next t    => respondStatus t
    | .fault f   => .stopped f
    | .refused r => .declined r

/-- A RUN stops in these (40_execution_cycle.md R110). -/
def Status.stopsRun : Status → Bool
  | .ready           => false
  | .running         => false
  | .waitingForInput => true
  | .halted          => true
  | .faulted         => true

/-- The loop of RUN (40_execution_cycle.md R110), bounded by a fuel that only a model has (R111; log entry 9). -/
def runLoop : Nat → State → HostOutcome
  | 0, s     => .fuelExhausted s
  | k + 1, s =>
    match step s with
    | .next t    => if t.status.stopsRun then respondStatus t else runLoop k t
    | .fault f   => .stopped f
    | .refused r => .declined r

/-- `RUN` (R166, 40_execution_cycle.md R110). Refused in Faulted with the reason alone: R166 adds no status and fault to
it, as R165 does for STEP (log entry 13). -/
def hostRun (fuel : Nat) (s : State) : HostOutcome :=
  match s.status with
  | .faulted => .responded (.refused .engineFaulted) s
  | .halted  => respondStatus (usageAfterHalt s)
  | _        => runLoop fuel (s.setStatus .running)

/-- A command that responds at once. -/
def respond (p : Response × State) : HostOutcome := .responded p.1 p.2

/-- One host command (R150). The fuel bounds RUN and nothing else. -/
def command (fuel : Nat) (c : Command) (s : State) : HostOutcome :=
  match c with
  | .reset image  => respond (hostReset image s)
  | .push v       => respond (hostPush v s)
  | .pushSeq vs   => respond (hostPushSeq vs s)
  | .pushAscii cs => respond (hostPushAscii cs s)
  | .peekIn       => respond (hostPeekIn s)
  | .popOut       => respond (hostPopOut s)
  | .popLast      => respond (hostPopLast s)
  | .popN n       => respond (hostPopN n s)
  | .isHalted     => respond (hostIsHalted s)
  | .getStatus    => respond (hostStatus s)
  | .memPeek a    => respond (hostMemPeek a s)
  | .memPoke a v  => respond (hostMemPoke a v s)
  | .step         => hostStep s
  | .run          => hostRun fuel s
  | .observe      => respond (hostObserve s)

/-- Commands one after another, as far as every one responds: the responses and the state after them (R150). -/
def commands (fuel : Nat) : List Command → State → Option (List Response × State)
  | [], s      => some ([], s)
  | c :: cs, s =>
    match command fuel c s with
    | .responded r t => (commands fuel cs t).map fun p => (r :: p.1, p.2)
    | _              => none

/-- Construction: "`RESET(P)` applied to a new engine" with its parameters (70_reset_and_hazards.md R201); no engine where
the image is refused. -/
def construct (cfg : Config) (image : List Int) : Option State :=
  match hostReset image { State.reset with cfg := cfg } with
  | (.ok, s) => some s
  | _        => none

end Sys2Proof.Machine
end

