-- ==== Sys2Proof/Machine/System.lean ====
section
/-! DEFINITION. Several engine instances (49_host_interface.md R170): each has its own state and its own command channel,
and instances share nothing (20_memory.md R66). The host's schedule is the order in which it issues commands. -/

namespace Sys2Proof.Machine

/-- A system of instances; the index is the host's own, instances have no identifier (R170; log entry 10). -/
abbrev System := List State

/-- One command on the channel of instance `k`: its outcome, and the system after it. Where a bounded RUN's fuel runs out,
the instance stands as far as it came, without a response (40_execution_cycle.md R111); where the model itself stops, the
system is left as it was (log entry 10). No outcome where there is no such instance. -/
def systemCommand (fuel : Nat) (k : Nat) (c : Command) (sys : System) : Option (HostOutcome × System) :=
  match sys[k]? with
  | none   => none
  | some s =>
    match command fuel c s with
    | .responded r t   => some (.responded r t, sys.set k t)
    | .fuelExhausted t => some (.fuelExhausted t, sys.set k t)
    | .stopped f       => some (.stopped f, sys)
    | .declined r      => some (.declined r, sys)

end Sys2Proof.Machine
end

