-- ==== Sys2Proof/Safety.lean ====
section
/-! DEFINITION. The terms in which claims about the engine are stated: the invariant of 10_state.md R36, what an operand
means in exact integers (30_encoding.md R80, R81), and which fault an operand's address raises (20_memory.md R50). -/

namespace Sys2Proof.Machine

/-! ## Statuses -/

/-- The live statuses (10_state.md R25): a step executes in these. -/
def Status.isLive : Status → Bool
  | .ready           => true
  | .running         => true
  | .waitingForInput => true
  | .halted          => false
  | .faulted         => false

/-- A program has terminated (40_execution_cycle.md R116). -/
abbrev State.Terminated (s : State) : Prop := s.status = .halted ∨ s.status = .faulted

/-! ## Operands -/

/-- The exact address an operand names: none for an immediate operand (R80, R81). -/
def operandAddress (s : State) : Operand → Option Int
  | .positional p => some p.toInt
  | .immediate _  => none
  | .relative p   => some (s.rb.toInt + p.toInt)

/-- A source operand that resolves: it is immediate, or its exact address is an address. -/
def readable (s : State) (o : Operand) : Bool :=
  match operandAddress s o with
  | some x => 0 ≤ x ∧ x ≤ addrMax
  | none   => true

/-- A destination operand that resolves: it is not immediate, and its exact address is an address. -/
def writable (s : State) (o : Operand) : Bool :=
  match operandAddress s o with
  | some x => 0 ≤ x ∧ x ≤ addrMax
  | none   => false

/-- The effective value of a source operand that resolves. -/
def sourceValue (s : State) (o : Operand) : Word :=
  match operandAddress s o with
  | some x => s.mem.read x.toNat
  | none   => o.word

/-- The effective address of a destination operand that resolves. -/
def storeAddress (s : State) (o : Operand) : Nat :=
  match operandAddress s o with
  | some x => x.toNat
  | none   => 0

/-- The fault of a computed address (20_memory.md R50), if it is none. -/
def addressFault (i : OperandIndex) (x : Int) : Option Trap :=
  if x < 0 then some ⟨.negativeAddress, some i, some x⟩
  else if (addrMax : Int) < x then some ⟨.addressOverflow, some i, some x⟩
  else none

/-- The fault of resolving operand `i`. -/
def operandFault (s : State) (i : OperandIndex) (o : Operand) : Option Trap :=
  (operandAddress s o).bind (addressFault i)

/-- The fault of resolving an instruction's operands: that of the lowest operand index that has one
(40_execution_cycle.md R107, R108). -/
def firstOperandFault (s : State) : Instr → Option Trap
  | .add a b d => (operandFault s 0 a).or ((operandFault s 1 b).or (operandFault s 2 d))
  | .mul a b d => (operandFault s 0 a).or ((operandFault s 1 b).or (operandFault s 2 d))
  | .inp d     => operandFault s 0 d
  | .out a     => operandFault s 0 a
  | .jt c t    => (operandFault s 0 c).or (operandFault s 1 t)
  | .jf c t    => (operandFault s 0 c).or (operandFault s 1 t)
  | .lt a b d  => (operandFault s 0 a).or ((operandFault s 1 b).or (operandFault s 2 d))
  | .eq a b d  => (operandFault s 0 a).or ((operandFault s 1 b).or (operandFault s 2 d))
  | .arb a     => operandFault s 0 a
  | .hlt       => none

/-! ## Encodings (30_encoding.md R83) -/

/-- The instruction words of format F3 less their opcode: `m_0, m_1` in {0, 1, 2} and `m_2` in {0, 2}. -/
def modeWordsF3 : List Int :=
  [0, 100, 200, 1000, 1100, 1200, 2000, 2100, 2200, 20000, 20100, 20200, 21000, 21100, 21200, 22000, 22100, 22200]

/-- The instruction words of format F2 less their opcode. -/
def modeWordsF2 : List Int := [0, 100, 200, 1000, 1100, 1200, 2000, 2100, 2200]

/-- The legal instruction words of an opcode, from the table of R83. -/
def legalWordsOf : Opcode → List Int
  | .f3 .add => modeWordsF3.map (· + 1)
  | .f3 .mul => modeWordsF3.map (· + 2)
  | .f1 .inp => [3, 203]
  | .f1 .out => [4, 104, 204]
  | .f2 .jt  => modeWordsF2.map (· + 5)
  | .f2 .jf  => modeWordsF2.map (· + 6)
  | .f3 .lt  => modeWordsF3.map (· + 7)
  | .f3 .eq  => modeWordsF3.map (· + 8)
  | .f1 .arb => [9, 109, 209]
  | .f0      => [99]

/-- The ten opcodes, in the table's order (R72). -/
def allOpcodes : List Opcode :=
  [.f3 .add, .f3 .mul, .f1 .inp, .f1 .out, .f2 .jt, .f2 .jf, .f3 .lt, .f3 .eq, .f1 .arb, .f0]

/-- The destination operand of an opcode that has one (R72, R78). -/
def destinationIndex : Opcode → Option OperandIndex
  | .f3 _    => some 2
  | .f1 .inp => some 0
  | .f1 .out => none
  | .f1 .arb => none
  | .f2 _    => none
  | .f0      => none

/-! ## Faults -/

/-- The state after a fault of the instruction at `pc` (60_exceptions.md R181, R182), written out. -/
def faultedWith (s : State) (cause : Cause) (operand : Option OperandIndex) (value : Option Int) : State :=
  { s with
    status := .faulted
    fault  := some
      { cause := cause, pc := s.pc, word := some (s.mem.read s.pc), operand := operand, value := value } }

/-! ## The invariant -/

/-- What holds of the engine between host commands (10_state.md R36 (a) and (b), R52, R27, R28, R182). -/
structure State.Inv (s : State) : Prop where
  /-- `0 <= pc <= ADDR_MAX` (R36 (a)). -/
  pc_address : s.pc ≤ addrMax
  /-- The memory is in canonical form; its cells are words at addresses (R45). -/
  mem_wf : s.mem.wf
  /-- No cell at or above a finite capacity holds anything but 0 (R52). -/
  mem_capacity : ∀ c ∈ s.mem, admits s.cfg.memCapacity (c.1 + 1) = true
  /-- The input queue is within its capacity (R27). -/
  iq_capacity : admits s.cfg.iqCapacity s.iq.length = true
  /-- The output queue is within its capacity (R28). -/
  oq_capacity : admits s.cfg.oqCapacity s.oq.length = true
  /-- `fault = none` exactly when `status != Faulted` (R36 (b)). -/
  fault_iff : s.fault = none ↔ s.status ≠ .faulted
  /-- `pc` keeps the address of the faulting instruction (R182). -/
  fault_pc : ∀ r, s.fault = some r → r.pc = s.pc

end Sys2Proof.Machine
end

