-- ==== Sys2Proof/Certificates/Slice0/Obligations.lean ====
section
/-! DEFINITION. The statements for the provers. Each is about every state and operand that meets its hypotheses; each docstring
names the rules of spec/ it formalises. -/

open Sys2Proof Sys2Proof.Machine

/-! ## Encoding -/

/-- R70, R79, R88: the words of a well-formed instruction decode to it, whatever words follow and whatever
`HIGH_DIGITS_MODE` is. -/
def Obligations.DecodeOfEncode : Prop :=
  ∀ (hm : HighDigitsMode) (i : Instr) (rest : List Word), i.wf = true → decode hm (encode i ++ rest) = .ok (i, rest)

/-- R71, R77, R88: with `HIGH_DIGITS_MODE = fault`, words that decode are the encoding of what they decode to, so no two
encodings name one instruction. -/
def Obligations.EncodeOfDecode : Prop :=
  ∀ (ws rest : List Word) (i : Instr), decode .fault ws = .ok (i, rest) → ws = encode i ++ rest

/-- R78, R79: no word decodes to an instruction with an immediate destination, in either mode. -/
def Obligations.DecodedInstructionIsWellFormed : Prop :=
  ∀ (hm : HighDigitsMode) (ws rest : List Word) (i : Instr), decode hm ws = .ok (i, rest) → i.wf = true

/-- R83: exactly the 99 words of its table decode without fault, each as its opcode; with `HIGH_DIGITS_MODE = ignore`, a
word `w >= 0` decodes exactly when `w mod 10^(2+n)` is one of them, for the `n` of its opcode. -/
def Obligations.LegalWordsDecode : Prop :=
  (allOpcodes.flatMap legalWordsOf).length = 99 ∧ (allOpcodes.flatMap legalWordsOf).Nodup ∧
  (∀ (op : Opcode) (w : Word),
    (∃ sh, decodeWord .fault w = .ok sh ∧ sh.opcode = op) ↔ w.toInt ∈ legalWordsOf op) ∧
  (∀ w : Word, 0 ≤ w.toInt →
    ((∃ sh, decodeWord .ignore w = .ok sh) ↔
      ∃ op, Opcode.ofCode (w.toInt % 100).toNat = some op ∧
        w.toInt % 10 ^ (2 + op.operandCount) ∈ legalWordsOf op))

/-- R71, R88: words written out from the spec's encodings decode to the instructions they stand for, one or more of each
format. -/
def Obligations.SampleWordsDecode : Prop :=
  decode .fault [21001, 9, -1, 3] = .ok (.add (.positional 9) (.immediate (-1)) (.relative 3), []) ∧
  decode .fault [1102, 34915192, 34915192, 7] =
    .ok (.mul (.immediate 34915192) (.immediate 34915192) (.positional 7), []) ∧
  decode .fault [203, -3] = .ok (.inp (.relative (-3)), []) ∧
  decode .fault [104, 1125899906842624, 99] = .ok (.out (.immediate 1125899906842624), [99]) ∧
  decode .fault [1005, 20, 2] = .ok (.jt (.positional 20) (.immediate 2), []) ∧
  decode .fault [1006, 101, 0] = .ok (.jf (.positional 101) (.immediate 0), []) ∧
  decode .fault [22207, 0, 1, 2] = .ok (.lt (.relative 0) (.relative 1) (.relative 2), []) ∧
  decode .fault [1008, 100, 16, 101] = .ok (.eq (.positional 100) (.immediate 16) (.positional 101), []) ∧
  decode .fault [209, 1] = .ok (.arb (.relative 1), []) ∧
  decode .fault [99] = .ok (.hlt, [])

/-- R73, R74: a step on a negative word, or on one whose `w mod 100` is no recognised opcode, raises INVALID_OPCODE. -/
def Obligations.NegativeOrUnknownOpcodeFaults : Prop :=
  ∀ (s : State), s.status.isLive = true → s.pc ≤ addrMax →
    ((s.mem.read s.pc).toInt < 0 ∨
      (0 ≤ (s.mem.read s.pc).toInt ∧
        (s.mem.read s.pc).toInt % 100 ∉ ([1, 2, 3, 4, 5, 6, 7, 8, 9, 99] : List Int))) →
    step s = .next (faultedWith s .invalidOpcode none none)

/-- R76: a step on a word with a recognised opcode raises INVALID_MODE for the lowest operand whose mode digit is not 0,
1 or 2. -/
def Obligations.BadModeDigitFaults : Prop :=
  ∀ (s : State) (op : Opcode) (i : OperandIndex), s.status.isLive = true → s.pc ≤ addrMax →
    0 ≤ (s.mem.read s.pc).toInt →
    Opcode.ofCode ((s.mem.read s.pc).toInt % 100).toNat = some op → i.val < op.operandCount →
    (∀ j : OperandIndex, j < i → digit (s.mem.read s.pc).toNat (2 + j) ≤ 2) →
    2 < digit (s.mem.read s.pc).toNat (2 + i) →
    step s = .next (faultedWith s .invalidMode (some i) (some (digit (s.mem.read s.pc).toNat (2 + i))))

/-- R77: with `HIGH_DIGITS_MODE = fault`, a word whose modes are legal and whose digits above the last mode digit are not
0 raises HIGH_DIGITS with their value; with `ignore`, those digits do not matter to the decoding of any word. -/
def Obligations.HighDigitsByMode : Prop :=
  (∀ (s : State) (op : Opcode), s.status.isLive = true → s.pc ≤ addrMax → s.cfg.highDigits = .fault →
    0 ≤ (s.mem.read s.pc).toInt →
    Opcode.ofCode ((s.mem.read s.pc).toInt % 100).toNat = some op →
    (∀ j : OperandIndex, j.val < op.operandCount → digit (s.mem.read s.pc).toNat (2 + j) ≤ 2) →
    high (s.mem.read s.pc).toNat (2 + op.operandCount) ≠ 0 →
    step s = .next
      (faultedWith s .highDigits none (some (high (s.mem.read s.pc).toNat (2 + op.operandCount))))) ∧
  (∀ (w w' : Word) (op : Opcode), 0 ≤ w.toInt → Opcode.ofCode (w.toInt % 100).toNat = some op →
    w'.toInt = w.toInt % 10 ^ (2 + op.operandCount) → decodeWord .ignore w = decodeWord .fault w')

/-- R78: a step on a word whose destination operand has mode digit 1, and that passes the decoder's earlier checks, raises
IMMEDIATE_DESTINATION. -/
def Obligations.ImmediateDestinationFaults : Prop :=
  ∀ (s : State) (op : Opcode) (d : OperandIndex), s.status.isLive = true → s.pc ≤ addrMax →
    0 ≤ (s.mem.read s.pc).toInt →
    Opcode.ofCode ((s.mem.read s.pc).toInt % 100).toNat = some op → destinationIndex op = some d →
    (∀ j : OperandIndex, j.val < op.operandCount → digit (s.mem.read s.pc).toNat (2 + j) ≤ 2) →
    (s.cfg.highDigits = .fault → high (s.mem.read s.pc).toNat (2 + op.operandCount) = 0) →
    digit (s.mem.read s.pc).toNat (2 + d) = 1 →
    step s = .next (faultedWith s .immediateDestination (some d) none)

/-! ## The step -/

/-- R100 to R105: in a live status, when the words at `pc` lie in the address space and decode to an instruction `i`, a
step is `exec` of `i`: nothing comes before or after it. -/
def Obligations.StepRunsDecodedInstruction : Prop :=
  ∀ (s : State) (i : Instr), s.status.isLive = true → s.pc + i.length ≤ addrMax + 1 →
    decode s.cfg.highDigits (s.mem.readWords s.pc i.length) = .ok (i, []) → step s = exec i s

/-- R104: where operand word `k` would stand just above `ADDR_MAX`, a step on a word that decodes raises ADDRESS_OVERFLOW
for operand `k` with that address. -/
def Obligations.OperandWordBeyondTopFaults : Prop :=
  ∀ (s : State) (sh : Shape) (k : OperandIndex), s.status.isLive = true → s.pc ≤ addrMax →
    decodeWord s.cfg.highDigits (s.mem.read s.pc) = .ok sh → k.val < sh.operandCount →
    s.pc + 1 + k.val = addrMax + 1 →
    step s = .next (faultedWith s .addressOverflow (some k) (some ((addrMax : Int) + 1)))

/-- R101, R165: STEP is refused in Faulted, raises USAGE_AFTER_HALT (with no word) in Halted, and in a live status always
answers a next state; the host's STEP command responds the status and fault of the state it leads to, and in Faulted its
refusal with the unchanged status and fault. -/
def Obligations.StepEntryCheck : Prop :=
  (∀ s : State, s.status = .faulted → step s = .refused .engineFaulted) ∧
  (∀ s : State, s.status = .halted → step s = .next
    { s with
      status := .faulted
      fault := some { cause := .usageAfterHalt, pc := s.pc, word := none, operand := none, value := none } }) ∧
  (∀ s : State, s.status.isLive = true → s.pc ≤ addrMax → ∃ t, step s = .next t) ∧
  (∀ (fuel : Nat) (s : State), s.status = .faulted →
    command fuel .step s = .responded (.refusedFaulted .faulted s.fault) s) ∧
  (∀ (fuel : Nat) (s t : State), step s = .next t →
    command fuel .step s = .responded (.status t.status t.fault) t)

/-- THE MODEL'S CHOICE (log entry 3), not a rule: a live state whose `pc` is no address, which R36 (a) says does not arise,
stops by name. -/
def Obligations.StepOutsideAddressSpaceStops : Prop :=
  ∀ s : State, s.status.isLive = true → addrMax < s.pc → step s = .fault (.pcOutsideAddressSpace s.pc)

/-! ## What each instruction does -/

/-- R126: ADD with a sum in the word range writes it, goes on four words further and changes nothing else. -/
def Obligations.AddStoresSum : Prop :=
  ∀ (s : State) (a b d : Operand) (r : Word),
    readable s a = true → readable s b = true → writable s d = true →
    r.toInt = (sourceValue s a).toInt + (sourceValue s b).toInt →
    admits s.cfg.memCapacity (storeAddress s d + 1) = true → s.pc + 4 ≤ addrMax →
    exec (.add a b d) s = .next
      { s with mem := s.mem.write (storeAddress s d) r, pc := s.pc + 4, status := .running }

/-- R127: MUL with a product in the word range writes it, goes on four words further and changes nothing else. -/
def Obligations.MulStoresProduct : Prop :=
  ∀ (s : State) (a b d : Operand) (r : Word),
    readable s a = true → readable s b = true → writable s d = true →
    r.toInt = (sourceValue s a).toInt * (sourceValue s b).toInt →
    admits s.cfg.memCapacity (storeAddress s d + 1) = true → s.pc + 4 ≤ addrMax →
    exec (.mul a b d) s = .next
      { s with mem := s.mem.write (storeAddress s d) r, pc := s.pc + 4, status := .running }

/-- R140: LT writes 1 where `a < b` as signed integers, else 0, and never raises ARITHMETIC_OVERFLOW. -/
def Obligations.LessThanStoresCondition : Prop :=
  ∀ (s : State) (a b d : Operand),
    readable s a = true → readable s b = true → writable s d = true →
    admits s.cfg.memCapacity (storeAddress s d + 1) = true → s.pc + 4 ≤ addrMax →
    exec (.lt a b d) s = .next
      { s with
        mem := s.mem.write (storeAddress s d) (if (sourceValue s a).toInt < (sourceValue s b).toInt then 1 else 0)
        pc := s.pc + 4
        status := .running }

/-- R141: EQ writes 1 where `a = b`, else 0. -/
def Obligations.EqualsStoresCondition : Prop :=
  ∀ (s : State) (a b d : Operand),
    readable s a = true → readable s b = true → writable s d = true →
    admits s.cfg.memCapacity (storeAddress s d + 1) = true → s.pc + 4 ≤ addrMax →
    exec (.eq a b d) s = .next
      { s with
        mem := s.mem.write (storeAddress s d) (if (sourceValue s a).toInt = (sourceValue s b).toInt then 1 else 0)
        pc := s.pc + 4
        status := .running }

/-- R130: IN with a non-empty input queue pops its front into the destination and goes on two words further. -/
def Obligations.InputReceivesFront : Prop :=
  ∀ (s : State) (d : Operand) (v : Word) (vs : List Word),
    writable s d = true → s.iq = v :: vs →
    admits s.cfg.memCapacity (storeAddress s d + 1) = true → s.pc + 2 ≤ addrMax →
    exec (.inp d) s = .next
      { s with iq := vs, mem := s.mem.write (storeAddress s d) v, pc := s.pc + 2, status := .running }

/-- R130, R134: IN with an empty input queue suspends: only the status changes, whatever the capacity and `pc` are. -/
def Obligations.InputSuspendsOnEmpty : Prop :=
  ∀ (s : State) (d : Operand), writable s d = true → s.iq = [] →
    exec (.inp d) s = .next { s with status := .waitingForInput }

/-- R131: OUT pushes its source value to the back of the output queue and goes on two words further. -/
def Obligations.OutputPushesValue : Prop :=
  ∀ (s : State) (a : Operand), readable s a = true →
    admits s.cfg.oqCapacity (s.oq.length + 1) = true → s.pc + 2 ≤ addrMax →
    exec (.out a) s = .next { s with oq := s.oq ++ [sourceValue s a], pc := s.pc + 2, status := .running }

/-- R133: OUT with a full output queue of finite capacity raises OUTPUT_QUEUE_FULL; with an unbounded queue it pushes, and
no step ever ends in that fault. -/
def Obligations.OutputFullQueueFaults : Prop :=
  (∀ (s : State) (a : Operand) (k : Nat), readable s a = true → s.cfg.oqCapacity = .finite k → s.oq.length = k →
    exec (.out a) s = .next (faultedWith s .outputQueueFull none none)) ∧
  (∀ (s : State) (a : Operand), readable s a = true → s.cfg.oqCapacity = .unbounded → s.pc + 2 ≤ addrMax →
    exec (.out a) s = .next { s with oq := s.oq ++ [sourceValue s a], pc := s.pc + 2, status := .running }) ∧
  (∀ (s t : State) (r : FaultRecord), s.cfg.oqCapacity = .unbounded → step s = .next t → t.status = .faulted →
    t.fault = some r → r.cause ≠ .outputQueueFull)

/-- R135: JT goes to its target where the condition is not 0 and the target not negative, raises NEGATIVE_ADDRESS where it
is negative, and goes on three words further where the condition is 0, whatever the target's value. -/
def Obligations.JumpIfTrue : Prop :=
  ∀ (s : State) (c t : Operand), readable s c = true → readable s t = true →
    (sourceValue s c ≠ 0 → 0 ≤ (sourceValue s t).toInt →
      exec (.jt c t) s = .next { s with pc := (sourceValue s t).toInt.toNat, status := .running }) ∧
    (sourceValue s c ≠ 0 → (sourceValue s t).toInt < 0 →
      exec (.jt c t) s = .next (faultedWith s .negativeAddress (some 1) (some (sourceValue s t).toInt))) ∧
    (sourceValue s c = 0 → s.pc + 3 ≤ addrMax →
      exec (.jt c t) s = .next { s with pc := s.pc + 3, status := .running })

/-- R136: JF does what JT does with "taken" meaning that the condition is 0. -/
def Obligations.JumpIfFalse : Prop :=
  ∀ (s : State) (c t : Operand), readable s c = true → readable s t = true →
    (sourceValue s c = 0 → 0 ≤ (sourceValue s t).toInt →
      exec (.jf c t) s = .next { s with pc := (sourceValue s t).toInt.toNat, status := .running }) ∧
    (sourceValue s c = 0 → (sourceValue s t).toInt < 0 →
      exec (.jf c t) s = .next (faultedWith s .negativeAddress (some 1) (some (sourceValue s t).toInt))) ∧
    (sourceValue s c ≠ 0 → s.pc + 3 ≤ addrMax →
      exec (.jf c t) s = .next { s with pc := s.pc + 3, status := .running })

/-- R145: ARB adds its source value, read with the old `rb`, to `rb`, which may become negative. -/
def Obligations.AdjustBaseAdds : Prop :=
  ∀ (s : State) (a : Operand) (r : Word), readable s a = true →
    r.toInt = s.rb.toInt + (sourceValue s a).toInt → s.pc + 2 ≤ addrMax →
    exec (.arb a) s = .next { s with rb := r, pc := s.pc + 2, status := .running }

/-- R146: HLT sets the status to Halted and changes nothing else; it never faults. -/
def Obligations.HaltKeepsEverythingElse : Prop :=
  ∀ s : State, exec .hlt s = .next { s with status := .halted }

/-- R125, mode `fault`: an exact result of ADD, MUL or ARB outside the word range raises ARITHMETIC_OVERFLOW with that
result, before any check on the write or the next `pc`. -/
def Obligations.ArithmeticOverflowFaults : Prop :=
  ∀ (s : State) (a b d : Operand), s.cfg.overflow = .fault → readable s a = true →
    (readable s b = true → writable s d = true →
      ¬IsWord ((sourceValue s a).toInt + (sourceValue s b).toInt) →
      exec (.add a b d) s = .next (faultedWith s .arithmeticOverflow none
        (some ((sourceValue s a).toInt + (sourceValue s b).toInt)))) ∧
    (readable s b = true → writable s d = true →
      ¬IsWord ((sourceValue s a).toInt * (sourceValue s b).toInt) →
      exec (.mul a b d) s = .next (faultedWith s .arithmeticOverflow none
        (some ((sourceValue s a).toInt * (sourceValue s b).toInt)))) ∧
    (¬IsWord (s.rb.toInt + (sourceValue s a).toInt) →
      exec (.arb a) s = .next (faultedWith s .arithmeticOverflow none
        (some (s.rb.toInt + (sourceValue s a).toInt))))

/-- R125, mode `wrap`: ADD, MUL and ARB take the word whose value is `((x - WORD_MIN) mod 2^64) + WORD_MIN` of the exact
result `x`, in the word range or not. -/
def Obligations.ArithmeticWrapsByFormula : Prop :=
  ∀ (s : State) (a b d : Operand) (r : Word), s.cfg.overflow = .wrap → readable s a = true →
    (readable s b = true → writable s d = true → admits s.cfg.memCapacity (storeAddress s d + 1) = true →
      s.pc + 4 ≤ addrMax →
      r.toInt = ((sourceValue s a).toInt + (sourceValue s b).toInt - wordMin) % 2 ^ 64 + wordMin →
      exec (.add a b d) s = .next
        { s with mem := s.mem.write (storeAddress s d) r, pc := s.pc + 4, status := .running }) ∧
    (readable s b = true → writable s d = true → admits s.cfg.memCapacity (storeAddress s d + 1) = true →
      s.pc + 4 ≤ addrMax →
      r.toInt = ((sourceValue s a).toInt * (sourceValue s b).toInt - wordMin) % 2 ^ 64 + wordMin →
      exec (.mul a b d) s = .next
        { s with mem := s.mem.write (storeAddress s d) r, pc := s.pc + 4, status := .running }) ∧
    (s.pc + 2 ≤ addrMax →
      r.toInt = (s.rb.toInt + (sourceValue s a).toInt - wordMin) % 2 ^ 64 + wordMin →
      exec (.arb a) s = .next { s with rb := r, pc := s.pc + 2, status := .running })

/-- R125: "two's-complement wrap": with mode `wrap`, ADD, MUL and ARB are the 64-bit addition and multiplication of the
words. -/
def Obligations.WrapIsTwosComplement : Prop :=
  ∀ (s : State) (a b d : Operand), s.cfg.overflow = .wrap → readable s a = true →
    (readable s b = true → writable s d = true → admits s.cfg.memCapacity (storeAddress s d + 1) = true →
      s.pc + 4 ≤ addrMax →
      exec (.add a b d) s = .next
        { s with
          mem := s.mem.write (storeAddress s d) (sourceValue s a + sourceValue s b)
          pc := s.pc + 4
          status := .running } ∧
      exec (.mul a b d) s = .next
        { s with
          mem := s.mem.write (storeAddress s d) (sourceValue s a * sourceValue s b)
          pc := s.pc + 4
          status := .running }) ∧
    (s.pc + 2 ≤ addrMax →
      exec (.arb a) s = .next { s with rb := s.rb + sourceValue s a, pc := s.pc + 2, status := .running })

/-- R107, R50: an instruction one of whose operands has a bad address raises the fault of the lowest such operand, used
or not, before any check of its own; an IN so even when the input queue is empty (R185). -/
def Obligations.LowestOperandFaultDecides : Prop :=
  ∀ (s : State) (i : Instr) (e : Trap), i.wf = true → firstOperandFault s i = some e →
    exec i s = .next (faultedWith s e.cause e.operand e.value)

/-- R78 for an instruction that no decoder made: an immediate destination raises IMMEDIATE_DESTINATION before any operand is
resolved (log entry 7: the model's reading of `exec` on such an instruction). -/
def Obligations.IllFormedInstructionFaults : Prop :=
  ∀ (s : State) (i : Instr) (k : OperandIndex) (d : Operand), i.wf = false → i.destination = some (k, d) →
    exec i s = .next (faultedWith s .immediateDestination (some k) none)

/-- R52: with a finite `MEM_CAPACITY = C`, a write at `C` or above raises MEMORY_CAPACITY instead; a read there returns 0
in every state of the invariant; and with an unbounded memory no step raises it. -/
def Obligations.MemoryCapacityBounds : Prop :=
  (∀ (s : State) (a b d : Operand) (c : Nat),
    s.cfg.memCapacity = .finite c → writable s d = true → c ≤ storeAddress s d →
    (readable s a = true → readable s b = true →
      (s.cfg.overflow = .wrap ∨ IsWord ((sourceValue s a).toInt + (sourceValue s b).toInt) →
        exec (.add a b d) s = .next (faultedWith s .memoryCapacity (some 2) (some (storeAddress s d)))) ∧
      (s.cfg.overflow = .wrap ∨ IsWord ((sourceValue s a).toInt * (sourceValue s b).toInt) →
        exec (.mul a b d) s = .next (faultedWith s .memoryCapacity (some 2) (some (storeAddress s d)))) ∧
      exec (.lt a b d) s = .next (faultedWith s .memoryCapacity (some 2) (some (storeAddress s d))) ∧
      exec (.eq a b d) s = .next (faultedWith s .memoryCapacity (some 2) (some (storeAddress s d)))) ∧
    (s.iq ≠ [] →
      exec (.inp d) s = .next (faultedWith s .memoryCapacity (some 0) (some (storeAddress s d))))) ∧
  (∀ (s : State) (c x : Nat), s.Inv → s.cfg.memCapacity = .finite c → c ≤ x → s.mem.read x = 0) ∧
  (∀ (s t : State) (r : FaultRecord), s.cfg.memCapacity = .unbounded → step s = .next t → t.status = .faulted →
    t.fault = some r → r.cause ≠ .memoryCapacity)

/-- R105: an instruction that falls through and passes its own checks raises ADDRESS_OVERFLOW, with no operand, where its
next `pc` is above `ADDR_MAX`. -/
def Obligations.NextPcBeyondTopFaults : Prop :=
  ∀ (s : State) (a b d : Operand),
    (addrMax < s.pc + 4 → readable s a = true → readable s b = true → writable s d = true →
      admits s.cfg.memCapacity (storeAddress s d + 1) = true →
      (s.cfg.overflow = .wrap ∨ IsWord ((sourceValue s a).toInt + (sourceValue s b).toInt) →
        exec (.add a b d) s = .next (faultedWith s .addressOverflow none (some ((s.pc : Int) + 4)))) ∧
      (s.cfg.overflow = .wrap ∨ IsWord ((sourceValue s a).toInt * (sourceValue s b).toInt) →
        exec (.mul a b d) s = .next (faultedWith s .addressOverflow none (some ((s.pc : Int) + 4)))) ∧
      exec (.lt a b d) s = .next (faultedWith s .addressOverflow none (some ((s.pc : Int) + 4))) ∧
      exec (.eq a b d) s = .next (faultedWith s .addressOverflow none (some ((s.pc : Int) + 4)))) ∧
    (addrMax < s.pc + 3 → readable s a = true → readable s b = true →
      (sourceValue s a = 0 →
        exec (.jt a b) s = .next (faultedWith s .addressOverflow none (some ((s.pc : Int) + 3)))) ∧
      (sourceValue s a ≠ 0 →
        exec (.jf a b) s = .next (faultedWith s .addressOverflow none (some ((s.pc : Int) + 3))))) ∧
    (addrMax < s.pc + 2 →
      (s.iq ≠ [] → writable s d = true → admits s.cfg.memCapacity (storeAddress s d + 1) = true →
        exec (.inp d) s = .next (faultedWith s .addressOverflow none (some ((s.pc : Int) + 2)))) ∧
      (readable s a = true → admits s.cfg.oqCapacity (s.oq.length + 1) = true →
        exec (.out a) s = .next (faultedWith s .addressOverflow none (some ((s.pc : Int) + 2)))) ∧
      (readable s a = true → s.cfg.overflow = .wrap ∨ IsWord (s.rb.toInt + (sourceValue s a).toInt) →
        exec (.arb a) s = .next (faultedWith s .addressOverflow none (some ((s.pc : Int) + 2)))))

/-! ## Frames -/

/-- The frame of ADD, MUL, LT and EQ: the parameters, `rb` and both queues stay; every word of memory stays but the one at
the resolved destination; the fault record stays unless a fault is taken, and then all of memory and `pc` stay. -/
def Obligations.StoringFrame : Prop :=
  ∀ (s t : State) (a b d : Operand) (i : Instr),
    i = .add a b d ∨ i = .mul a b d ∨ i = .lt a b d ∨ i = .eq a b d → exec i s = .next t →
    t.cfg = s.cfg ∧ t.rb = s.rb ∧ t.iq = s.iq ∧ t.oq = s.oq ∧
    (∀ x, (∀ ea, resolveDst s 2 d = .ok ea → x ≠ ea) → t.mem.read x = s.mem.read x) ∧
    ((t.status = .running ∧ t.fault = s.fault) ∨
      (t.status = .faulted ∧ t.pc = s.pc ∧ ∀ x, t.mem.read x = s.mem.read x))

/-- The frame of IN: the parameters, `rb` and the output queue stay; every word of memory stays but the one at the resolved
destination; and only an IN that completes pops the input queue or moves `pc`. -/
def Obligations.InputFrame : Prop :=
  ∀ (s t : State) (d : Operand), exec (.inp d) s = .next t →
    t.cfg = s.cfg ∧ t.rb = s.rb ∧ t.oq = s.oq ∧
    (∀ x, (∀ ea, resolveDst s 0 d = .ok ea → x ≠ ea) → t.mem.read x = s.mem.read x) ∧
    ((t.status = .running ∧ t.fault = s.fault ∧ t.iq = s.iq.tail) ∨
      (t.status = .waitingForInput ∧ t.fault = s.fault ∧ t.iq = s.iq ∧ t.pc = s.pc ∧
        ∀ x, t.mem.read x = s.mem.read x) ∨
      (t.status = .faulted ∧ t.iq = s.iq ∧ t.pc = s.pc ∧ ∀ x, t.mem.read x = s.mem.read x))

/-- The frame of the instructions that store nothing, OUT, JT, JF, ARB and HLT: the parameters, the input queue and every
word of memory stay; `rb` stays but for ARB and the output queue but for OUT; a fault keeps `pc`, `rb` and the output
queue. -/
def Obligations.NonStoringFrame : Prop :=
  ∀ (s t : State) (a b : Operand) (i : Instr),
    i = .out a ∨ i = .jt a b ∨ i = .jf a b ∨ i = .arb a ∨ i = .hlt → exec i s = .next t →
    t.cfg = s.cfg ∧ t.iq = s.iq ∧ (∀ x, t.mem.read x = s.mem.read x) ∧
    (i ≠ .arb a → t.rb = s.rb) ∧ (i ≠ .out a → t.oq = s.oq) ∧
    ((t.status = .running ∧ t.fault = s.fault) ∨ (t.status = .halted ∧ i = .hlt ∧ t.fault = s.fault ∧ t.pc = s.pc) ∨
      (t.status = .faulted ∧ t.pc = s.pc ∧ t.rb = s.rb ∧ t.oq = s.oq))

/-! ## The whole machine -/

/-- R36 (a) and (b), R52, R27, R28, R182: every step keeps the invariant. -/
def Obligations.StepKeepsInvariant : Prop := ∀ s t : State, s.Inv → step s = .next t → t.Inv

/-- R200, R201: the state after reset meets the invariant: `State.reset`, and the engine constructed with any parameters
and any image that is accepted, as every valid image is. -/
def Obligations.ResetMeetsInvariant : Prop :=
  State.reset.Inv ∧
  (∀ (cfg : Config) (image : List Int) (s : State), construct cfg image = some s → s.Inv) ∧
  (∀ (cfg : Config) (image : List Int), (∀ v ∈ image, IsWord v) → image.length ≤ addrMax + 1 →
    admits cfg.memCapacity image.length = true → ∃ s, construct cfg image = some s ∧ s.cfg = cfg ∧ s.Inv)

/-- R36 (a) and (b): every host command keeps the invariant, a RUN so far as it has gone too when its fuel
runs out (log entry 9). -/
def Obligations.CommandKeepsInvariant : Prop :=
  ∀ (fuel : Nat) (c : Command) (s t : State), s.Inv →
    (∀ r, command fuel c s = .responded r t → t.Inv) ∧ (command fuel c s = .fuelExhausted t → t.Inv)

/-- R150: in the invariant every command responds, except that a RUN may go on for ever, its fuel running out
(log entry 9). -/
def Obligations.CommandResponds : Prop :=
  ∀ (fuel : Nat) (c : Command) (s : State), s.Inv →
    (∃ r t, command fuel c s = .responded r t) ∨ (c = .run ∧ ∃ t, command fuel c s = .fuelExhausted t)

/-- R106, R182, R183: a step that ends in Faulted changed nothing but the status and the fault record, whose `pc` is the
step's, and whose word is the one fetched there (none after HLT). -/
def Obligations.FaultsArePrecise : Prop :=
  ∀ s t : State, step s = .next t → t.status = .faulted →
    ∃ r, t = { s with status := .faulted, fault := some r } ∧ r.pc = s.pc ∧
      r.word = if s.status = .halted then none else some (s.mem.read s.pc)

/-- R109: the status after a step that does not fault is Halted for HLT, WaitingForInput for an IN that found the input
queue empty, and Running otherwise. -/
def Obligations.StatusAfterStep : Prop :=
  ∀ s t : State, step s = .next t → t.status ≠ .faulted →
    t.status =
      if (s.mem.read s.pc).toInt % 100 = 99 then .halted
      else if (s.mem.read s.pc).toInt % 100 = 3 ∧ s.iq = [] then .waitingForInput
      else .running

/-- R137, R22: after a step that does not fault, `pc` is its old value, or 2, 3 or 4 more, unless the instruction is a JT or
JF that is taken, and then it is the target's effective value. -/
def Obligations.PcAfterStep : Prop :=
  ∀ s t : State, step s = .next t → t.status ≠ .faulted →
    (∀ c g, fetch s = .ok (.jt c g) →
      t.pc = if sourceValue s c ≠ 0 then (sourceValue s g).toInt.toNat else s.pc + 3) ∧
    (∀ c g, fetch s = .ok (.jf c g) →
      t.pc = if sourceValue s c = 0 then (sourceValue s g).toInt.toNat else s.pc + 3) ∧
    ((s.mem.read s.pc).toInt % 100 ∈ ([1, 2, 7, 8] : List Int) → t.pc = s.pc + 4) ∧
    ((s.mem.read s.pc).toInt % 100 ∈ ([4, 9] : List Int) → t.pc = s.pc + 2) ∧
    ((s.mem.read s.pc).toInt % 100 = 3 → t.pc = if s.iq = [] then s.pc else s.pc + 2) ∧
    ((s.mem.read s.pc).toInt % 100 = 99 → t.pc = s.pc)

/-- R23, R27, R28, R30, R57: only ARB writes `rb`, only IN pops the input queue, only OUT pushes the output queue, and only
ADD, MUL, IN, LT and EQ write memory: one word at most, at the address the fetched instruction's destination resolves to. -/
def Obligations.OnlyTheseInstructionsWrite : Prop :=
  ∀ s t : State, step s = .next t →
    t.cfg = s.cfg ∧
    (t.rb ≠ s.rb → (s.mem.read s.pc).toInt % 100 = 9) ∧
    (t.iq ≠ s.iq → (s.mem.read s.pc).toInt % 100 = 3 ∧ ∃ v, s.iq = v :: t.iq) ∧
    (t.oq ≠ s.oq → (s.mem.read s.pc).toInt % 100 = 4 ∧ ∃ v, t.oq = s.oq ++ [v]) ∧
    (t.mem ≠ s.mem → (s.mem.read s.pc).toInt % 100 ∈ ([1, 2, 3, 7, 8] : List Int)) ∧
    (∀ x, (∀ i k d ea, fetch s = .ok i → i.destination = some (k, d) → resolveDst s k d = .ok ea → x ≠ ea) →
      t.mem.read x = s.mem.read x) ∧
    (t.mem ≠ s.mem → ∃ i k d v, fetch s = .ok i ∧ i.destination = some (k, d) ∧ writable s d = true ∧
      t.mem = s.mem.write (storeAddress s d) v)

/-- R112: a step that suspends changes only the status; repeating STEP or RUN while the input queue is empty changes
nothing at all. -/
def Obligations.SuspensionIsIdempotent : Prop :=
  ∀ s t : State, step s = .next t → t.status = .waitingForInput →
    t = { s with status := .waitingForInput } ∧ step t = .next t ∧
    ∀ fuel, command (fuel + 1) .run t = .responded (.status .waitingForInput t.fault) t

/-- R116: Halted and Faulted are final: no later STEP or RUN changes `pc`, `rb`, memory or the queues. -/
def Obligations.TerminatedIsFinal : Prop :=
  ∀ (fuel : Nat) (cs : List Command) (s t : State) (rs : List Response), s.Terminated →
    (∀ c ∈ cs, c = .step ∨ c = .run) → commands fuel cs s = some (rs, t) →
    t.pc = s.pc ∧ t.rb = s.rb ∧ t.mem = s.mem ∧ t.iq = s.iq ∧ t.oq = s.oq ∧ t.Terminated

/-- R109, R34: what a step does is the same whichever live status it starts in. -/
def Obligations.LiveStatusIsIrrelevant : Prop :=
  ∀ (s : State) (x y : Status), x.isLive = true → y.isLive = true →
    step { s with status := x } = step { s with status := y }

/-- R59, R114, R132: input that waits behind the front of the queue, or is not read at all, changes nothing of a step: a
step that does not suspend does the same with more input pushed first, and leaves it in the queue. -/
def Obligations.LaterInputIsIrrelevant : Prop :=
  ∀ (s t : State) (vs : List Word), step s = .next t → t.status ≠ .waitingForInput →
    step { s with iq := s.iq ++ vs } = .next { t with iq := t.iq ++ vs }

/-- R28, R30, R132: what stands in an unbounded output queue changes nothing of a step: the engine never reads it. -/
def Obligations.OutputHistoryIsIrrelevant : Prop :=
  ∀ (s t : State) (q : List Word), s.cfg.oqCapacity = .unbounded → step s = .next t →
    step { s with oq := q ++ s.oq } = .next { t with oq := q ++ t.oq }

/-- R52, R9: a finite memory only adds faults: a step that does not end in MEMORY_CAPACITY is the step of the unbounded
memory. -/
def Obligations.FiniteMemoryRefinesUnbounded : Prop :=
  ∀ s t : State, step s = .next t → (∀ r, t.fault = some r → r.cause ≠ .memoryCapacity) →
    step { s with cfg := { s.cfg with memCapacity := .unbounded } } =
      .next { t with cfg := { t.cfg with memCapacity := .unbounded } }

/-! ## The host's commands -/

/-- R164, R200, R46: RESET with a valid image sets every element to its reset value and the memory to the image followed by
zeros, and keeps the parameters; any other image is refused and changes nothing. -/
def Obligations.ResetLoadsImage : Prop :=
  (∀ (s : State) (image : List Int), (∀ v ∈ image, IsWord v) → image.length ≤ addrMax + 1 →
    admits s.cfg.memCapacity image.length = true →
    ∃ t, hostReset image s = (.ok, t) ∧ t.cfg = s.cfg ∧ t.pc = 0 ∧ t.rb = 0 ∧ t.status = .ready ∧ t.fault = none ∧
      t.iq = [] ∧ t.oq = [] ∧ ∀ x, (t.mem.read x).toInt = image.getD x 0) ∧
  (∀ (s : State) (image : List Int),
    ¬((∀ v ∈ image, IsWord v) ∧ image.length ≤ addrMax + 1 ∧ admits s.cfg.memCapacity image.length = true) →
    hostReset image s = (.refused .badImage, s))

/-- R152, R153: PUSH and PUSH_SEQ append all their words in order or, where one is no word or the capacity would be
exceeded, are refused and append nothing (where both hold, some refusal is given: which one is log entry 5). -/
def Obligations.PushAppendsAllOrNothing : Prop :=
  (∀ (s : State) (ws : List Word), admits s.cfg.iqCapacity (s.iq.length + ws.length) = true →
    hostPushSeq (ws.map BitVec.toInt) s = (.ok, { s with iq := s.iq ++ ws })) ∧
  (∀ (s : State) (ws : List Word), admits s.cfg.iqCapacity (s.iq.length + ws.length) = false →
    hostPushSeq (ws.map BitVec.toInt) s = (.refused .iqFull, s)) ∧
  (∀ (s : State) (vs : List Int), (∃ v ∈ vs, ¬IsWord v) → admits s.cfg.iqCapacity (s.iq.length + vs.length) = true →
    hostPushSeq vs s = (.refused .badValue, s)) ∧
  (∀ (s : State) (vs : List Int), (∃ v ∈ vs, ¬IsWord v) → ∃ why, hostPushSeq vs s = (.refused why, s)) ∧
  (∀ (s : State) (v : Int), hostPush v s = hostPushSeq [v] s)

/-- R154: PUSH_ASCII pushes the characters' codes in order, adding none, and is refused with nothing appended where a
character has no code or the capacity would be exceeded. That a character's ASCII code is its number `c.toNat` is the
model's (log entry 12, PRESUMED); where both refusals hold, some refusal is given: which one is log entry 5. -/
def Obligations.PushAsciiPushesCodes : Prop :=
  (∀ (s : State) (cs : List Char), (∀ c ∈ cs, c.toNat ≤ 127) →
    hostPushAscii cs s = hostPushSeq (cs.map fun c => (c.toNat : Int)) s) ∧
  (∀ (s : State) (cs : List Char), (∀ c ∈ cs, c.toNat ≤ 127) →
    admits s.cfg.iqCapacity (s.iq.length + cs.length) = true →
    hostPushAscii cs s = (.ok, { s with iq := s.iq ++ cs.map fun c => BitVec.ofNat 64 c.toNat })) ∧
  (∀ (s : State) (cs : List Char), (∃ c ∈ cs, 127 < c.toNat) →
    admits s.cfg.iqCapacity (s.iq.length + cs.length) = true → hostPushAscii cs s = (.refused .notAscii, s)) ∧
  (∀ (s : State) (cs : List Char), (∃ c ∈ cs, 127 < c.toNat) → ∃ why, hostPushAscii cs s = (.refused why, s))

/-- R156, R157, R158: the three pops of the output queue. -/
def Obligations.PopsTakeFromOutput : Prop :=
  (∀ s : State, s.oq = [] → hostPopOut s = (.nothing, s) ∧ hostPopLast s = (.nothing, s)) ∧
  (∀ (s : State) (v : Word) (vs : List Word), s.oq = v :: vs → hostPopOut s = (.value v, { s with oq := vs })) ∧
  (∀ (s : State) (v : Word) (vs : List Word), s.oq = vs ++ [v] → hostPopLast s = (.value v, { s with oq := [] })) ∧
  (∀ (s : State) (vs ws : List Word), s.oq = vs ++ ws → hostPopN vs.length s = (.list vs, { s with oq := ws })) ∧
  (∀ (s : State) (n : Nat), s.oq.length < n → hostPopN n s = (.notEnough, s)) ∧
  (∀ (s : State) (n : Int), n < 0 → hostPopN n s = (.refused .badValue, s))

/-- R161, R162, R48: a peek answers the word at its address; a poke that is accepted is what a peek of that address then
answers, every other address answers as before, and nothing but memory changes; each is refused, changing nothing, as its
rule says (where two of a poke's refusals hold, some refusal is given: which one is log entry 5). -/
def Obligations.PokeThenPeek : Prop :=
  (∀ (s : State) (a x : Nat) (v : Word), s.mem.wf → a ≤ addrMax → x ≤ addrMax →
    admits s.cfg.memCapacity (a + 1) = true →
    ∃ t, hostMemPoke a v.toInt s = (.ok, t) ∧ t = { s with mem := t.mem } ∧
      hostMemPeek x t = (.value (if x = a then v else s.mem.read x), t)) ∧
  (∀ (s : State) (x : Nat), x ≤ addrMax → hostMemPeek x s = (.value (s.mem.read x), s)) ∧
  (∀ (s : State) (x : Int), ¬IsAddress x → hostMemPeek x s = (.refused .badAddress, s)) ∧
  (∀ (s : State) (a v : Int), ¬IsAddress a → IsWord v → a < 0 ∨ admits s.cfg.memCapacity (a.toNat + 1) = true →
    hostMemPoke a v s = (.refused .badAddress, s)) ∧
  (∀ (s : State) (a v : Int), IsAddress a → ¬IsWord v → admits s.cfg.memCapacity (a.toNat + 1) = true →
    hostMemPoke a v s = (.refused .badValue, s)) ∧
  (∀ (s : State) (a v : Int), IsAddress a → IsWord v → admits s.cfg.memCapacity (a.toNat + 1) = false →
    hostMemPoke a v s = (.refused .memCapacity, s)) ∧
  (∀ (s : State) (a v : Int), ¬IsAddress a ∨ ¬IsWord v ∨ admits s.cfg.memCapacity (a.toNat + 1) = false →
    ∃ why, hostMemPoke a v s = (.refused why, s))

/-- R155, R159, R160, R169: what the four commands that only look answer; none changes the state. -/
def Obligations.QueriesAnswerState : Prop :=
  (∀ s : State, hostPeekIn s = (match s.iq.head? with | some v => .value v | none => .nothing, s)) ∧
  (∀ s : State, hostIsHalted s = (.bool (decide (s.status = .halted)), s)) ∧
  (∀ s : State, hostStatus s = (.status s.status s.fault, s)) ∧
  (∀ s : State, hostObserve s = (.observed s.pc s.rb, s))

/-- R151, R167: a refused command changes nothing, and a command other than STEP, RUN and RESET never changes the status,
the fault record, `pc` or `rb`. -/
def Obligations.HostCommandsKeepRegisters : Prop :=
  ∀ (fuel : Nat) (c : Command) (s t : State) (r : Response), command fuel c s = .responded r t →
    ((∃ why, r = .refused why) ∨ (∃ st f, r = .refusedFaulted st f) → t = s) ∧
    (c ≠ .step → c ≠ .run → (∀ image, c ≠ .reset image) →
      t.status = s.status ∧ t.fault = s.fault ∧ t.pc = s.pc ∧ t.rb = s.rb ∧ t.cfg = s.cfg)

/-- R110, R166: RUN is refused in Faulted, raises USAGE_AFTER_HALT in Halted, and from a live status makes steps until one
ends in Halted, WaitingForInput or Faulted, whose status it responds; it never responds another. The fuel, one unit a step,
is the model's own bound, and a RUN without any does not respond (log entry 9, which R111 allows). -/
def Obligations.RunRepeatsSteps : Prop :=
  (∀ (fuel : Nat) (s : State), s.status = .faulted →
    command fuel .run s = .responded (.refused .engineFaulted) s) ∧
  (∀ (fuel : Nat) (s : State), s.status = .halted → ∃ t, step s = .next t ∧
    command fuel .run s = .responded (.status .faulted t.fault) t) ∧
  (∀ s : State, s.status.isLive = true → command 0 .run s = .fuelExhausted { s with status := .running }) ∧
  (∀ (fuel : Nat) (s t : State), s.status.isLive = true → step { s with status := .running } = .next t →
    command (fuel + 1) .run s =
      if t.status = .halted ∨ t.status = .waitingForInput ∨ t.status = .faulted then
        .responded (.status t.status t.fault) t
      else command fuel .run t) ∧
  (∀ (fuel : Nat) (s t : State) (r : Response), s.status ≠ .faulted → command fuel .run s = .responded r t →
    r = .status t.status t.fault ∧ (t.status = .halted ∨ t.status = .waitingForInput ∨ t.status = .faulted))

/-- R111, R166: a RUN's response is the same however much more fuel the model gives it (log entry 9), and it is never
given with status Ready or Running. -/
def Obligations.RunResponseIsFinal : Prop :=
  ∀ (fuel more : Nat) (s t : State) (r : Response), command fuel .run s = .responded r t →
    command (fuel + more) .run s = .responded r t ∧
    (t.status = .halted ∨ t.status = .waitingForInput ∨ t.status = .faulted)

/-- R66, R170: a command on one instance's channel is that command on its state alone, and leaves every other instance as
it was. -/
def Obligations.InstancesShareNothing : Prop :=
  ∀ (fuel k : Nat) (c : Command) (sys sys' : System) (o : HostOutcome),
    systemCommand fuel k c sys = some (o, sys') →
    (∃ s, sys[k]? = some s ∧ o = command fuel c s ∧ ∀ r t, o = .responded r t → sys'[k]? = some t) ∧
    sys'.length = sys.length ∧ ∀ j, j ≠ k → sys'[j]? = sys[j]?

/-- R89: what MOV, JMP and NOP encode to and do. -/
def Obligations.PseudoInstructions : Prop :=
  (∀ a d : Operand, encode (pseudoMov a d) =
    [BitVec.ofNat 64 (1 + 100 * a.mode.toDigit + 1000 + 10000 * d.mode.toDigit), a.word, 0, d.word]) ∧
  (∀ g : Operand, encode (pseudoJmp g) = [BitVec.ofNat 64 (105 + 1000 * g.mode.toDigit), 1, g.word]) ∧
  encode pseudoNop = [1105, 0, 0] ∧
  (∀ (s : State) (a d : Operand), readable s a = true → writable s d = true →
    admits s.cfg.memCapacity (storeAddress s d + 1) = true → s.pc + 4 ≤ addrMax →
    exec (pseudoMov a d) s = .next
      { s with mem := s.mem.write (storeAddress s d) (sourceValue s a), pc := s.pc + 4, status := .running }) ∧
  (∀ (s : State) (g : Operand), readable s g = true → 0 ≤ (sourceValue s g).toInt →
    exec (pseudoJmp g) s = .next { s with pc := (sourceValue s g).toInt.toNat, status := .running }) ∧
  (∀ (s : State) (g : Operand), readable s g = true → (sourceValue s g).toInt < 0 →
    exec (pseudoJmp g) s = .next (faultedWith s .negativeAddress (some 1) (some (sourceValue s g).toInt))) ∧
  (∀ s : State, s.pc + 3 ≤ addrMax → exec pseudoNop s = .next { s with pc := s.pc + 3, status := .running })
end

