-- ==== Sys2Proof/Laws/Checks.lean ====
section
/-! SUPPORT. One lemma per check that may fail, saying everything it can answer, and how checks run one after another. -/

namespace Sys2Proof.Machine

section Bind
variable {ε α β : Type} {x : Except ε α} {f : α → Except ε β}

@[simp] theorem ok_bind (a : α) : ((Except.ok a : Except ε α) >>= f) = f a := rfl

@[simp] theorem error_bind (e : ε) : ((Except.error e : Except ε α) >>= f) = .error e := rfl

/-- Two checks succeed when both do. -/
theorem bind_eq_ok {r : β} : (x >>= f) = .ok r ↔ ∃ a, x = .ok a ∧ f a = .ok r := by
  cases x <;> simp

/-- Two checks fail when the first does, or it succeeds and the second fails. -/
theorem bind_eq_error {e : ε} : (x >>= f) = .error e ↔ x = .error e ∨ ∃ a, x = .ok a ∧ f a = .error e := by
  cases x <;> simp

end Bind

@[simp] theorem commit_ok (s t : State) : commit s (.ok t) = .next t := rfl

@[simp] theorem commit_error (s : State) (e : Trap) : commit s (.error e) = .next (raiseFault s e) := rfl

/-- A commit always answers a next state: the effects, or the fault (40_execution_cycle.md R106). -/
theorem commit_eq_next {s t : State} {r : Except Trap State} :
    commit s r = .next t ↔ r = .ok t ∨ ∃ e, r = .error e ∧ t = raiseFault s e := by
  cases r <;> simp [eq_comm]

/-- `CheckAddr` succeeds on addresses, with the address (20_memory.md R50). -/
theorem checkAddr_eq_ok {x : Int} {i : Option OperandIndex} {a : Nat} :
    checkAddr x i = .ok a ↔ IsAddress x ∧ a = x.toNat := by
  unfold checkAddr IsAddress
  split
  · simp; omega
  · split
    · simp; omega
    · simp only [Except.ok.injEq]
      omega

/-- `CheckAddr` on an address given as a natural number. -/
theorem checkAddr_natCast {n : Nat} (i : Option OperandIndex) (h : n ≤ addrMax) : checkAddr (n : Int) i = .ok n :=
  checkAddr_eq_ok.mpr ⟨⟨by omega, by omega⟩, by simp⟩

/-- `CheckAddr` fails in one of two ways (R50). -/
theorem checkAddr_eq_error {x : Int} {i : Option OperandIndex} {e : Trap} :
    checkAddr x i = .error e ↔
      (x < 0 ∧ e = ⟨.negativeAddress, i, some x⟩) ∨ ((addrMax : Int) < x ∧ e = ⟨.addressOverflow, i, some x⟩) := by
  unfold checkAddr
  split
  · have : ¬(addrMax : Int) < x := by unfold addrMax; omega
    simp [*, eq_comm]
  · split <;> simp [*, eq_comm]

/-- The fall-through `pc` (40_execution_cycle.md R105). -/
theorem fallThrough_eq_ok {s : State} {n pc : Nat} :
    fallThrough s n = .ok pc ↔ s.pc + n ≤ addrMax ∧ pc = s.pc + n := by
  unfold fallThrough
  rw [checkAddr_eq_ok, IsAddress]
  omega

theorem fallThrough_eq_error {s : State} {n : Nat} {e : Trap} :
    fallThrough s n = .error e ↔ addrMax < s.pc + n ∧ e = ⟨.addressOverflow, none, some ((s.pc : Int) + n)⟩ := by
  unfold fallThrough
  rw [checkAddr_eq_error]
  constructor
  · rintro (⟨h, -⟩ | ⟨h, rfl⟩)
    · omega
    · exact ⟨by omega, rfl⟩
  · rintro ⟨h, rfl⟩
    exact .inr ⟨by omega, rfl⟩

/-- A step's write (20_memory.md R48, R52). -/
theorem storeWord_eq_ok {s : State} {i : OperandIndex} {ea : Nat} {v : Word} {m : Memory} :
    storeWord s i ea v = .ok m ↔ admits s.cfg.memCapacity (ea + 1) = true ∧ m = s.mem.write ea v := by
  unfold storeWord
  split <;> rename_i h <;> simp [h, eq_comm]

theorem storeWord_eq_error {s : State} {i : OperandIndex} {ea : Nat} {v : Word} {e : Trap} :
    storeWord s i ea v = .error e ↔
      admits s.cfg.memCapacity (ea + 1) = false ∧ e = ⟨.memoryCapacity, some i, some (ea : Int)⟩ := by
  unfold storeWord
  split <;> rename_i h <;> simp [h, eq_comm]

/-- A step's push (42_io.md R131, R133). -/
theorem pushOutput_eq_ok {s : State} {v : Word} {q : List Word} :
    pushOutput s v = .ok q ↔ admits s.cfg.oqCapacity (s.oq.length + 1) = true ∧ q = s.oq ++ [v] := by
  unfold pushOutput
  split <;> rename_i h <;> simp [h, eq_comm]

theorem pushOutput_eq_error {s : State} {v : Word} {e : Trap} :
    pushOutput s v = .error e ↔
      admits s.cfg.oqCapacity (s.oq.length + 1) = false ∧ e = ⟨.outputQueueFull, none, none⟩ := by
  unfold pushOutput
  split <;> rename_i h <;> simp [h, eq_comm]

/-- A word's value is in the word range (00_scope.md R7). -/
theorem isWord_toInt (w : Word) : IsWord w.toInt := by
  have h1 := BitVec.le_toInt w
  have h2 := BitVec.toInt_lt (x := w)
  simp only [IsWord, wordMin, wordMax]
  omega

/-- Every integer of the word range is the value of its word. -/
theorem toInt_ofInt_of_isWord {x : Int} (h : IsWord x) : (BitVec.ofInt 64 x).toInt = x := by
  simp only [IsWord, wordMin, wordMax] at h
  rw [BitVec.toInt_ofInt]
  refine Int.bmod_eq_of_le ?_ ?_ <;> omega

/-- `WordResult` of an exact integer in the word range (41_arithmetic.md R125): the word of that value. -/
theorem wordResult_of_toInt (om : OverflowMode) (r : Word) : wordResult om r.toInt = .ok r := by
  unfold wordResult
  rw [if_pos (isWord_toInt r)]
  simp

/-- `WordResult` outside the word range, mode `fault`. -/
theorem wordResult_fault {x : Int} (h : ¬IsWord x) :
    wordResult .fault x = .error ⟨.arithmeticOverflow, none, some x⟩ := by
  unfold wordResult
  rw [if_neg h]

/-- `WordResult` outside the word range, mode `wrap`: the word whose value is the spec's formula. -/
theorem wordResult_wrap {x : Int} (h : ¬IsWord x) {r : Word}
    (hr : r.toInt = (x - wordMin) % 18446744073709551616 + wordMin) : wordResult .wrap x = .ok r := by
  unfold wordResult
  rw [if_neg h, ← hr]
  simp

/-- `WordResult` answers a word in mode `wrap`, and in the word range in either mode. -/
theorem wordResult_answers {om : OverflowMode} {x : Int} (h : om = .wrap ∨ IsWord x) : ∃ r, wordResult om x = .ok r := by
  unfold wordResult
  split
  · exact ⟨_, rfl⟩
  · rcases h with rfl | h
    · exact ⟨_, rfl⟩
    · contradiction

/-- `WordResult` fails only with ARITHMETIC_OVERFLOW. -/
theorem wordResult_eq_error {om : OverflowMode} {x : Int} {e : Trap} (h : wordResult om x = .error e) :
    om = .fault ∧ ¬IsWord x ∧ e = ⟨.arithmeticOverflow, none, some x⟩ := by
  unfold wordResult at h
  split at h
  · simp at h
  · cases om <;> simp_all [eq_comm]

end Sys2Proof.Machine
end

