-- ==== Sys2Proof/Laws/Decode.lean ====
section
/-! SUPPORT. What the decoder and the fetch can answer (30_encoding.md R71 to R79, 40_execution_cycle.md R102 to R104). -/

namespace Sys2Proof

open Sys2Proof.Machine

/-- A number names an opcode only if it is that opcode's number (R72). -/
theorem Opcode.eq_code_of_ofCode {n : Nat} {op : Opcode} (h : Opcode.ofCode n = some op) : n = op.code := by
  unfold Opcode.ofCode at h
  split at h <;> simp at h <;> subst h <;> rfl

/-- An opcode's number names it (R72). -/
theorem Opcode.ofCode_of_code (op : Opcode) : Opcode.ofCode op.code = some op := by
  cases op with
  | f0 => rfl
  | f1 o => cases o <;> rfl
  | f2 o => cases o <;> rfl
  | f3 o => cases o <;> rfl

theorem Mode.toDigit_lt (m : Mode) : m.toDigit < 3 := by cases m <;> simp [Mode.toDigit]

theorem Operand.operand_mode_word (o : Operand) : o.mode.operand o.word = o := by cases o <;> rfl

@[simp] theorem Mode.word_operand (m : Mode) (p : Word) : (m.operand p).word = p := by cases m <;> rfl

@[simp] theorem Mode.mode_operand (m : Mode) (p : Word) : (m.operand p).mode = m := by cases m <;> rfl

/-- The mode digit of an operand decodes to the mode it is the digit of (R75). -/
theorem decodeMode_eq_ok {w : Nat} {i : OperandIndex} {m : Mode} :
    decodeMode w i = .ok m ↔ digit w (2 + i.val) = m.toDigit := by
  unfold decodeMode
  generalize digit w (2 + i.val) = d
  unfold Mode.ofDigit
  split
  · rename_i h
    split at h <;> simp at h <;> subst h <;> cases m <;> simp [Mode.toDigit]
  · rename_i h
    split at h <;> simp at h
    cases m <;> simp [Mode.toDigit] <;> omega

/-- A mode digit above 2 is rejected (R76). -/
theorem decodeMode_eq_error {w : Nat} {i : OperandIndex} (h : 2 < digit w (2 + i.val)) :
    decodeMode w i = .error (.invalidMode i (digit w (2 + i.val))) := by
  unfold decodeMode
  have hn : Mode.ofDigit (digit w (2 + i.val)) = none := by
    unfold Mode.ofDigit
    split <;> first | omega | rfl
  rw [hn]

/-- The check on the high digits (R77). -/
theorem checkHighDigits_eq_ok {hm : HighDigitsMode} {w n : Nat} {u : Unit} :
    checkHighDigits hm w n = .ok u ↔ (hm = .fault → high w (2 + n) = 0) := by
  unfold checkHighDigits
  cases u
  cases hm <;> simp

theorem checkHighDigits_eq_error {w n : Nat} (h : high w (2 + n) ≠ 0) :
    checkHighDigits .fault w n = .error (.highDigits (high w (2 + n))) := by
  simp [checkHighDigits, h]

/-- The check on a destination's mode (R78). -/
theorem checkDestinationMode_eq_ok {i : OperandIndex} {m : Mode} {u : Unit} :
    checkDestinationMode i m = .ok u ↔ m ≠ .immediate := by
  cases u
  cases m <;> simp [checkDestinationMode]

theorem checkDestinationF1_eq_ok {op : OpF1} {m : Mode} {u : Unit} :
    checkDestinationF1 op m = .ok u ↔ (op = .inp → m ≠ .immediate) := by
  cases u
  cases op <;> simp [checkDestinationF1, checkDestinationMode_eq_ok]

/-- The number of the instruction word a shape stands for: `OP + 100*m_0 + 1000*m_1 + 10000*m_2` (R88). -/
def Shape.number : Shape → Nat
  | .f0 => 99
  | .f1 o m => Opcode.code (.f1 o) + 100 * m.toDigit
  | .f2 o m n => Opcode.code (.f2 o) + 100 * m.toDigit + 1000 * n.toDigit
  | .f3 o m n p => Opcode.code (.f3 o) + 100 * m.toDigit + 1000 * n.toDigit + 10000 * p.toDigit

/-- A shape with no immediate destination (R78). -/
def Shape.Legal : Shape → Prop
  | .f1 .inp m   => m ≠ .immediate
  | .f3 _ _ _ p  => p ≠ .immediate
  | .f1 .out _   => True
  | .f1 .arb _   => True
  | .f2 _ _ _    => True
  | .f0          => True

/-- Everything `Decode(w)` returns (R79): a legal shape whose number the word is, up to the high digits. -/
theorem decodeWord_eq_ok {hm w sh} : decodeWord hm w = .ok sh ↔ 0 ≤ w.toInt ∧ Shape.Legal sh ∧ (w.toInt.toNat % 10 ^ (2 + sh.operandCount) = Shape.number sh) ∧ (hm = .fault → w.toInt.toNat = Shape.number sh) := by
  unfold decodeWord
  split
  · simp; omega
  rename_i h0
  generalize w.toInt.toNat = v
  rw [show (0 ≤ w.toInt) = True from by simp; omega, true_and]
  constructor
  · intro h
    split at h
    · simp at h
    rename_i op hop
    have h1 := Opcode.eq_code_of_ofCode hop
    cases op <;> simp only [decodeShape, bind_eq_ok, decodeMode_eq_ok, checkDestinationMode_eq_ok, checkDestinationF1_eq_ok, checkHighDigits_eq_ok] at h
    · obtain ⟨_, hh, h⟩ := h; cases h
      simp only [Shape.Legal, Shape.number, Shape.operandCount, Shape.opcode, Opcode.operandCount, high, Opcode.code] at *
      simp at *; refine ⟨by omega, fun h => ?_⟩; have := hh h; omega
    · rename_i o
      obtain ⟨m, hm0, _, hh, _, hw, h⟩ := h; cases h
      have hc : Opcode.code (.f1 o) < 10 := by cases o <;> simp [Opcode.code]
      refine ⟨by cases o <;> simp_all [Shape.Legal], ?_⟩
      simp only [Shape.number, Shape.operandCount, Shape.opcode, Opcode.operandCount, high, digit] at *
      simp at *; refine ⟨by omega, fun h => ?_⟩; have := hh h; omega
    · rename_i o
      obtain ⟨m, hm0, m1, hm1, _, hh, h⟩ := h; cases h
      have hc : Opcode.code (.f2 o) < 10 := by cases o <;> simp [Opcode.code]
      refine ⟨by simp [Shape.Legal], ?_⟩
      simp only [Shape.number, Shape.operandCount, Shape.opcode, Opcode.operandCount, high, digit] at *
      simp at *; refine ⟨by omega, fun h => ?_⟩; have := hh h; omega
    · rename_i o
      obtain ⟨m, hm0, m1, hm1, m2, hm2, _, hh, _, hw, h⟩ := h; cases h
      have hc : Opcode.code (.f3 o) < 10 := by cases o <;> simp [Opcode.code]
      refine ⟨by simpa [Shape.Legal] using hw, ?_⟩
      simp only [Shape.number, Shape.operandCount, Shape.opcode, Opcode.operandCount, high, digit] at *
      simp at *; refine ⟨by omega, fun h => ?_⟩; have := hh h; omega
  · rintro ⟨hw, hn, hf⟩
    have hop : Opcode.ofCode (v % 100) = some sh.opcode := by
      rw [← Opcode.ofCode_of_code]
      congr 1
      cases sh with
      | f0 => simp [Shape.number, Shape.operandCount, Shape.opcode, Opcode.operandCount, Opcode.code] at *; omega
      | f1 o m =>
        have hc : Opcode.code (.f1 o) < 10 := by cases o <;> simp [Opcode.code]
        simp [Shape.number, Shape.operandCount, Shape.opcode, Opcode.operandCount] at *; omega
      | f2 o m n =>
        have hc : Opcode.code (.f2 o) < 10 := by cases o <;> simp [Opcode.code]
        simp [Shape.number, Shape.operandCount, Shape.opcode, Opcode.operandCount] at *; omega
      | f3 o m n p =>
        have hc : Opcode.code (.f3 o) < 10 := by cases o <;> simp [Opcode.code]
        simp [Shape.number, Shape.operandCount, Shape.opcode, Opcode.operandCount] at *; omega
    rw [hop]
    show decodeShape hm v sh.opcode = _
    cases sh with
    | f0 =>
      simp only [Shape.opcode, decodeShape, bind_eq_ok, checkHighDigits_eq_ok]
      simp [Shape.number, high] at *
      intro h; have := hf h; omega
    | f1 o m =>
      have hc : Opcode.code (.f1 o) < 10 := by cases o <;> simp [Opcode.code]
      have := Mode.toDigit_lt m
      simp only [Shape.opcode, decodeShape, bind_eq_ok, checkHighDigits_eq_ok, decodeMode_eq_ok, checkDestinationF1_eq_ok]
      simp [Shape.number, Shape.operandCount, Shape.opcode, Opcode.operandCount] at hn hf
      refine ⟨m, by simp [digit]; omega, (), fun h => by have := hf h; simp [high]; omega, (), ?_, rfl⟩
      rintro rfl; exact hw
    | f2 o m n =>
      have hc : Opcode.code (.f2 o) < 10 := by cases o <;> simp [Opcode.code]
      have := Mode.toDigit_lt m; have := Mode.toDigit_lt n
      simp only [Shape.opcode, decodeShape, bind_eq_ok, checkHighDigits_eq_ok, decodeMode_eq_ok]
      simp [Shape.number, Shape.operandCount, Shape.opcode, Opcode.operandCount] at hn hf
      exact ⟨m, by simp [digit]; omega, n, by simp [digit]; omega, (), fun h => by have := hf h; simp [high]; omega, rfl⟩
    | f3 o m n p =>
      have hc : Opcode.code (.f3 o) < 10 := by cases o <;> simp [Opcode.code]
      have := Mode.toDigit_lt m; have := Mode.toDigit_lt n; have := Mode.toDigit_lt p
      simp only [Shape.opcode, decodeShape, bind_eq_ok, checkHighDigits_eq_ok, decodeMode_eq_ok, checkDestinationMode_eq_ok]
      simp [Shape.number, Shape.operandCount, Shape.opcode, Opcode.operandCount] at hn hf
      exact ⟨m, by simp [digit]; omega, n, by simp [digit]; omega, p, by simp [digit]; omega, (), fun h => by have := hf h; simp [high]; omega, (), hw, rfl⟩

/-- The instruction word of a decoded instruction is the number of its shape (R88). -/
theorem Shape.wordNumber_instr (sh : Shape) (ps : List Word) : (sh.instr ps).wordNumber = Shape.number sh := by
  cases sh with
  | f0 => rfl
  | f1 o m => cases o <;> cases m <;> rfl
  | f2 o m n => cases o <;> cases m <;> cases n <;> simp [Shape.number, Shape.instr, OpF2.instr, Instr.wordNumber, Instr.opcode, Opcode.code, Instr.operands, modeNumber, Mode.operand, Operand.mode, Mode.toDigit]
  | f3 o m n p => cases o <;> cases m <;> cases n <;> cases p <;> simp [Shape.number, Shape.instr, OpF3.instr, Instr.wordNumber, Instr.opcode, Opcode.code, Instr.operands, modeNumber, Mode.operand, Operand.mode, Mode.toDigit]

/-- A legal shape makes a well-formed instruction. -/
theorem Shape.instr_wf {sh : Shape} (h : Shape.Legal sh) (ps : List Word) : (sh.instr ps).wf = true := by
  cases sh with
  | f0 => rfl
  | f1 o m => cases o <;> cases m <;> first | rfl | exact absurd rfl h
  | f2 o m n => cases o <;> rfl
  | f3 o m n p => cases o <;> cases p <;> first | rfl | exact absurd rfl h

/-- The opcode of the instruction a shape makes. -/
@[simp] theorem Shape.opcode_instr (sh : Shape) (ps : List Word) : (sh.instr ps).opcode = sh.opcode := by
  cases sh with
  | f0 => rfl
  | f1 o m => cases o <;> rfl
  | f2 o m n => cases o <;> rfl
  | f3 o m n p => cases o <;> rfl

/-- `w mod 100` of a word that decodes is its opcode (R71). -/
theorem opcode_of_decodeWord {hm : HighDigitsMode} {w : Word} {sh : Shape} (h : decodeWord hm w = .ok sh) :
    w.toInt % 100 = sh.opcode.code := by
  unfold decodeWord at h
  split at h
  · simp at h
  · split at h
    · simp at h
    · rename_i op hop
      have h1 := Opcode.eq_code_of_ofCode hop
      have h2 : sh.opcode = op := by
        cases op <;> simp only [decodeShape, bind_eq_ok] at h
        · obtain ⟨_, _, h⟩ := h
          cases h
          rfl
        · obtain ⟨_, _, _, _, _, _, h⟩ := h
          cases h
          rfl
        · obtain ⟨_, _, _, _, _, _, h⟩ := h
          cases h
          rfl
        · obtain ⟨_, _, _, _, _, _, _, _, _, _, h⟩ := h
          cases h
          rfl
      rw [h2, ← h1]
      omega

end Sys2Proof

namespace Sys2Proof.Machine

/-- `w mod 100` of the word at `pc` is the opcode of the fetched instruction. -/
theorem opcode_of_fetch {s : State} {i : Instr} (h : fetch s = .ok i) :
    (s.mem.read s.pc).toInt % 100 = i.opcode.code := by
  unfold fetch at h
  split at h
  · simp at h
  · rename_i sh hsh
    simp only [bind_eq_ok] at h
    obtain ⟨ps, -, h⟩ := h
    cases h
    rw [Shape.opcode_instr]
    exact opcode_of_decodeWord hsh

/-- Operand words that lie in the address space are the words of memory there (40_execution_cycle.md R104). -/
theorem operandWords_eq_ok {s : State} {n i : Nat} (h : s.pc + 1 + i + n ≤ addrMax + 1) :
    operandWords s i n = .ok (s.mem.readWords (s.pc + 1 + i) n) := by
  induction n generalizing i with
  | zero => rfl
  | succ n ih =>
    simp only [operandWords]
    rw [show ((s.pc : Int) + 1 + i) = ((s.pc + 1 + i : Nat) : Int) by push_cast; ring, checkAddr_natCast _ (by omega)]
    simp only [ok_bind]
    rw [ih (by omega)]
    rfl

end Sys2Proof.Machine
end

