-- ==== Sys2Proof/Laws/Memory.lean ====
section
/-! SUPPORT. The laws of the memory: what a read answers after a write, and that every memory operation keeps the
canonical form. -/

namespace Sys2Proof.Machine

@[simp] theorem Memory.read_nil (a : Nat) : Memory.read [] a = 0 := rfl

/-- Where every listed address is above `a`, `a` reads 0. -/
theorem Memory.read_of_lt {m : Memory} {a : Nat} (h : ∀ c ∈ m, a < c.1) : m.read a = 0 := by
  induction m with
  | nil => rfl
  | cons c m ih =>
    have hc := h c (by simp)
    simp only [Memory.read]
    rw [if_neg (by omega)]
    exact ih fun d hd => h d (by simp [hd])

theorem Memory.wf_tail {c : Cell} {m : Memory} (h : Memory.wf (c :: m)) : Memory.wf m :=
  ⟨(List.pairwise_cons.mp h.1).2, fun d hd => h.2 d (by simp [hd])⟩

theorem Memory.wf_head_lt {c : Cell} {m : Memory} (h : Memory.wf (c :: m)) : ∀ d ∈ m, c.1 < d.1 :=
  (List.pairwise_cons.mp h.1).1

/-- A write leaves every other address alone, in any memory. -/
theorem Memory.read_write_ne (m : Memory) {a b : Nat} (v : Word) (h : b ≠ a) :
    (m.write a v).read b = m.read b := by
  induction m with
  | nil =>
    simp only [Memory.write]
    split <;> simp [Memory.read, h]
  | cons c m ih =>
    obtain ⟨x, u⟩ := c
    simp only [Memory.write]
    split
    · split <;> simp [Memory.read, h]
    · split
      · subst_vars
        split <;> simp [Memory.read, h]
      · simp [Memory.read, ih]

/-- A write stores its value, in a memory in canonical form (R48). -/
theorem Memory.read_write_self {m : Memory} (hm : m.wf) (a : Nat) (v : Word) : (m.write a v).read a = v := by
  induction m with
  | nil =>
    simp only [Memory.write]
    split <;> simp_all [Memory.read]
  | cons c m ih =>
    obtain ⟨x, u⟩ := c
    have hlt := Memory.wf_head_lt hm
    simp only [Memory.write]
    split
    · rename_i hax
      split
      · rename_i hv
        rw [hv]
        refine Memory.read_of_lt fun d hd => ?_
        rcases List.mem_cons.mp hd with rfl | hd
        · exact hax
        · exact Nat.lt_trans hax (hlt d hd)
      · simp [Memory.read]
    · split
      · subst_vars
        split
        · rename_i hv
          rw [hv]
          exact Memory.read_of_lt hlt
        · simp [Memory.read]
      · rename_i hne
        simp only [Memory.read, if_neg hne]
        exact ih (Memory.wf_tail hm)

/-- A read after a write (R47, R48). -/
theorem Memory.read_write {m : Memory} (hm : m.wf) (a b : Nat) (v : Word) :
    (m.write a v).read b = if b = a then v else m.read b := by
  split
  · subst_vars
    exact Memory.read_write_self hm _ v
  · rename_i h
    exact Memory.read_write_ne m v h

/-- The cells after a write: old ones, and the written one if its word is listed at all. -/
theorem Memory.mem_write {m : Memory} {a : Nat} {v : Word} {c : Cell} (h : c ∈ m.write a v) :
    c ∈ m ∨ (c = (a, v) ∧ v ≠ 0) := by
  induction m with
  | nil =>
    simp only [Memory.write] at h
    split at h <;> simp_all
  | cons d m ih =>
    obtain ⟨x, u⟩ := d
    simp only [Memory.write] at h
    split at h
    · split at h <;> simp_all [or_comm, or_left_comm]
    · split at h
      · split at h
        · exact .inl (by simp [h])
        · rcases List.mem_cons.mp h with rfl | h
          · exact .inr ⟨rfl, by assumption⟩
          · exact .inl (by simp [h])
      · rcases List.mem_cons.mp h with rfl | h
        · exact .inl (by simp)
        · rcases ih h with h | h
          · exact .inl (by simp [h])
          · exact .inr h

/-- A write at an address keeps the canonical form. -/
theorem Memory.write_wf {m : Memory} (hm : m.wf) {a : Nat} (ha : a ≤ addrMax) (v : Word) : (m.write a v).wf := by
  refine ⟨?_, fun c hc => ?_⟩
  · induction m with
    | nil =>
      simp only [Memory.write]
      split <;> simp
    | cons d m ih =>
      obtain ⟨x, u⟩ := d
      have hlt := Memory.wf_head_lt hm
      have ht := Memory.wf_tail hm
      simp only [Memory.write]
      split
      · rename_i hax
        split
        · exact hm.1
        · refine List.pairwise_cons.mpr ⟨fun d hd => ?_, hm.1⟩
          rcases List.mem_cons.mp hd with rfl | hd
          · exact hax
          · exact Nat.lt_trans hax (hlt d hd)
      · split
        · subst_vars
          split
          · exact ht.1
          · exact List.pairwise_cons.mpr ⟨hlt, ht.1⟩
        · refine List.pairwise_cons.mpr ⟨fun d hd => ?_, ih ht⟩
          rcases Memory.mem_write hd with hd | ⟨rfl, -⟩
          · exact hlt d hd
          · show x < a
            omega
  · rcases Memory.mem_write hc with hc | ⟨rfl, hv⟩
    · exact hm.2 c hc
    · exact ⟨ha, hv⟩

theorem Memory.ofWords_bounds {a : Nat} {vs : List Word} {c : Cell} (h : c ∈ Memory.ofWords a vs) :
    a ≤ c.1 ∧ c.1 < a + vs.length ∧ c.2 ≠ 0 := by
  induction vs generalizing a with
  | nil => simp [Memory.ofWords] at h
  | cons v vs ih =>
    simp only [Memory.ofWords] at h
    split at h
    · have := ih h
      simp only [List.length_cons]
      exact ⟨by omega, by omega, this.2.2⟩
    · rcases List.mem_cons.mp h with rfl | h
      · exact ⟨Nat.le_refl _, by simp, by assumption⟩
      · have := ih h
        simp only [List.length_cons]
        exact ⟨by omega, by omega, this.2.2⟩

/-- The reset memory is in canonical form (R46). -/
theorem Memory.ofWords_wf {a : Nat} {vs : List Word} (h : a + vs.length ≤ addrMax + 1) :
    (Memory.ofWords a vs).wf := by
  refine ⟨?_, fun c hc => ?_⟩
  · clear h
    induction vs generalizing a with
    | nil => simp [Memory.ofWords]
    | cons v vs ih =>
      simp only [Memory.ofWords]
      split
      · exact ih
      · refine List.pairwise_cons.mpr ⟨fun d hd => ?_, ih⟩
        have := Memory.ofWords_bounds hd
        show a < d.1
        omega
  · have := Memory.ofWords_bounds hc
    exact ⟨by omega, this.2.2⟩

/-- What the reset memory holds (R46). -/
theorem Memory.read_ofWords (a b : Nat) (vs : List Word) :
    (Memory.ofWords a vs).read b = if a ≤ b then vs.getD (b - a) 0 else 0 := by
  induction vs generalizing a with
  | nil => simp [Memory.ofWords]
  | cons v vs ih =>
    have key : b ≠ a → (if a + 1 ≤ b then vs.getD (b - (a + 1)) 0 else 0) =
        if a ≤ b then (v :: vs).getD (b - a) 0 else (0 : Word) := fun hne => by
      by_cases hab : a ≤ b
      · rw [if_pos (by omega), if_pos hab]
        obtain ⟨k, hk⟩ : ∃ k, b - a = k + 1 := ⟨b - a - 1, by omega⟩
        rw [hk, show b - (a + 1) = k by omega]
        simp
      · rw [if_neg (by omega), if_neg hab]
    simp only [Memory.ofWords]
    by_cases hba : b = a
    · subst hba
      split
      · rename_i hv
        rw [ih, if_neg (by omega)]
        simp [hv]
      · simp [Memory.read]
    · split
      · rw [ih, key hba]
      · simp only [Memory.read, if_neg hba]
        rw [ih, key hba]

/-- Writing a row of words keeps the canonical form. -/
theorem Memory.writeWords_wf {m : Memory} (hm : m.wf) (a : Nat) (vs : List Word) : (m.writeWords a vs).wf := by
  induction vs generalizing m a with
  | nil => exact hm
  | cons v vs ih =>
    simp only [Memory.writeWords]
    split
    · rename_i ha
      exact ih (Memory.write_wf hm ha v) _
    · exact ih hm _

@[simp] theorem Memory.readWords_length (m : Memory) (a n : Nat) : (m.readWords a n).length = n := by
  induction n generalizing a with
  | zero => rfl
  | succ n ih => simp [Memory.readWords, ih]

/-- Memories in canonical form that read alike are equal: equal memories are equal data. -/
theorem Memory.ext_of_read {m m' : Memory} (hm : m.wf) (hm' : m'.wf) (h : ∀ a, m.read a = m'.read a) : m = m' := by
  induction m generalizing m' with
  | nil =>
    cases m' with
    | nil => rfl
    | cons c m' =>
      have h1 := h c.1
      simp only [Memory.read, if_true] at h1
      exact absurd h1.symm (hm'.2 c (by simp)).2
  | cons c m ih =>
    obtain ⟨x, u⟩ := c
    have hu : u ≠ 0 := (hm.2 (x, u) (by simp)).2
    have hx := h x
    simp only [Memory.read, if_true] at hx
    cases m' with
    | nil => exact absurd hx hu
    | cons d m' =>
      obtain ⟨y, w⟩ := d
      have hw : w ≠ 0 := (hm'.2 (y, w) (by simp)).2
      have hy := h y
      simp only [Memory.read, if_true] at hy
      have hxy : x = y := by
        rcases Nat.lt_trichotomy x y with hlt | heq | hgt
        · exfalso
          rw [Memory.read, if_neg (by omega), Memory.read_of_lt fun d hd =>
            Nat.lt_trans hlt (Memory.wf_head_lt hm' d hd)] at hx
          exact hu hx
        · exact heq
        · exfalso
          rw [if_neg (by omega), Memory.read_of_lt fun d hd =>
            Nat.lt_trans hgt (Memory.wf_head_lt hm d hd)] at hy
          exact hw hy.symm
      subst hxy
      simp only [Memory.read, if_true] at hx
      have htail : m = m' := by
        refine ih (Memory.wf_tail hm) (Memory.wf_tail hm') fun a => ?_
        by_cases ha : a = x
        · subst ha
          rw [Memory.read_of_lt (Memory.wf_head_lt hm), Memory.read_of_lt (Memory.wf_head_lt hm')]
        · have := h a
          simpa only [Memory.read, if_neg ha] using this
      rw [hx, htail]

/-- The memory of `State.reset` is in canonical form (R46). -/
theorem State.reset_mem_wf : State.reset.mem.wf := by decide

end Sys2Proof.Machine
end

