-- ==== Sys2Proof/Laws/Operands.lean ====
section
/-! SUPPORT. What resolving an operand can answer, in the terms of Safety.lean, and what the two shared instruction shapes
can do. -/

namespace Sys2Proof.Machine

theorem readable_iff {s : State} {o : Operand} :
    readable s o = true ↔ ∀ x, operandAddress s o = some x → IsAddress x := by
  unfold readable
  cases operandAddress s o <;> simp [IsAddress]

theorem writable_iff {s : State} {o : Operand} :
    writable s o = true ↔ ∃ x, operandAddress s o = some x ∧ IsAddress x := by
  unfold writable
  cases operandAddress s o <;> simp [IsAddress]

/-- A source operand that resolves gives its effective value (30_encoding.md R80). -/
theorem resolveSrc_of_readable {s : State} (i : OperandIndex) {o : Operand} (h : readable s o = true) :
    resolveSrc s i o = .ok (sourceValue s o) := by
  cases o with
  | positional p =>
    have hx := readable_iff.mp h p.toInt rfl
    simp [resolveSrc, sourceValue, operandAddress, checkAddr_eq_ok.mpr ⟨hx, rfl⟩]
  | immediate p => rfl
  | relative p =>
    have hx := readable_iff.mp h (s.rb.toInt + p.toInt) rfl
    simp [resolveSrc, sourceValue, operandAddress, checkAddr_eq_ok.mpr ⟨hx, rfl⟩]

/-- Resolving a source operand succeeds on readable operands alone. -/
theorem resolveSrc_eq_ok {s : State} {i : OperandIndex} {o : Operand} {v : Word} :
    resolveSrc s i o = .ok v ↔ readable s o = true ∧ v = sourceValue s o := by
  constructor
  · intro h
    have hr : readable s o = true := readable_iff.mpr <| by
      cases o with
      | immediate p => intro x hx; simp [operandAddress] at hx
      | positional p =>
        simp only [resolveSrc, bind_eq_ok, checkAddr_eq_ok] at h
        obtain ⟨a, ⟨ha, -⟩, -⟩ := h
        intro x hx
        simp only [operandAddress, Option.some.injEq] at hx
        exact hx ▸ ha
      | relative p =>
        simp only [resolveSrc, bind_eq_ok, checkAddr_eq_ok] at h
        obtain ⟨a, ⟨ha, -⟩, -⟩ := h
        intro x hx
        simp only [operandAddress, Option.some.injEq] at hx
        exact hx ▸ ha
    rw [resolveSrc_of_readable i hr] at h
    exact ⟨hr, (Except.ok.inj h).symm⟩
  · rintro ⟨h, rfl⟩
    exact resolveSrc_of_readable i h

/-- Where an address has a fault, checking it raises that fault (20_memory.md R50). -/
theorem checkAddr_of_addressFault {i : OperandIndex} {x : Int} {t : Trap} (h : addressFault i x = some t) :
    checkAddr x (some i) = .error t := by
  unfold addressFault at h
  unfold checkAddr
  split at h
  · simp_all
  · split at h <;> simp_all

theorem addressFault_eq_none {i : OperandIndex} {x : Int} : addressFault i x = none ↔ IsAddress x := by
  unfold addressFault IsAddress
  split
  · simp; omega
  · split <;> simp <;> omega

/-- Resolving a source operand fails with the operand's fault. -/
theorem resolveSrc_of_operandFault {s : State} {i : OperandIndex} {o : Operand} {t : Trap}
    (h : operandFault s i o = some t) : resolveSrc s i o = .error t := by
  cases o with
  | immediate p => simp [operandFault, operandAddress] at h
  | positional p => simp [resolveSrc, checkAddr_of_addressFault (x := p.toInt) h]
  | relative p => simp [resolveSrc, checkAddr_of_addressFault (x := s.rb.toInt + p.toInt) h]

/-- Resolving a destination operand fails with the operand's fault. -/
theorem resolveDst_of_operandFault {s : State} {i : OperandIndex} {o : Operand} {t : Trap}
    (h : operandFault s i o = some t) : resolveDst s i o = .error t := by
  cases o with
  | immediate p => simp [operandFault, operandAddress] at h
  | positional p => exact checkAddr_of_addressFault (x := p.toInt) h
  | relative p => exact checkAddr_of_addressFault (x := s.rb.toInt + p.toInt) h

/-- A source operand without a fault is readable. -/
theorem readable_of_operandFault_none {s : State} {i : OperandIndex} {o : Operand} (h : operandFault s i o = none) :
    readable s o = true := readable_iff.mpr fun x hx => by
  simp only [operandFault, hx, Option.bind_some] at h
  exact addressFault_eq_none.mp h

/-- A destination operand that resolves gives its effective address (R81). -/
theorem resolveDst_eq_ok {s : State} {i : OperandIndex} {o : Operand} {ea : Nat} :
    resolveDst s i o = .ok ea ↔ writable s o = true ∧ ea = storeAddress s o := by
  cases o <;> simp [resolveDst, writable_iff, operandAddress, storeAddress, checkAddr_eq_ok]

/-- A writable operand is a destination form (R78). -/
theorem isDestination_of_writable {s : State} {o : Operand} (h : writable s o = true) : o.isDestination = true := by
  obtain ⟨x, hx, -⟩ := writable_iff.mp h
  cases o <;> simp_all [operandAddress, Operand.isDestination]

@[simp] theorem checkDestination_eq_ok {i : OperandIndex} {d : Operand} {u : Unit} :
    checkDestination i d = .ok u ↔ d.isDestination = true := by
  unfold checkDestination
  split <;> simp_all

theorem checkDestination_of_writable {s : State} (i : OperandIndex) {d : Operand} (h : writable s d = true) :
    checkDestination i d = .ok () := checkDestination_eq_ok.mpr (isDestination_of_writable h)

/-- Everything a three-operand instruction can commit (41_arithmetic.md R126). -/
theorem storeBinary_eq_ok {s t : State} {a b d : Operand} {f : Word → Word → Except Trap Word} :
    storeBinary s a b d f = .ok t ↔
      readable s a = true ∧ readable s b = true ∧ writable s d = true ∧
      admits s.cfg.memCapacity (storeAddress s d + 1) = true ∧ s.pc + 4 ≤ addrMax ∧
      ∃ r, f (sourceValue s a) (sourceValue s b) = .ok r ∧
        t = { s with mem := s.mem.write (storeAddress s d) r, pc := s.pc + 4, status := .running } := by
  simp only [storeBinary, bind_eq_ok, resolveSrc_eq_ok, resolveDst_eq_ok, storeWord_eq_ok, fallThrough_eq_ok,
    checkDestination_eq_ok]
  constructor
  · rintro ⟨-, hd, x, ⟨ha, rfl⟩, y, ⟨hb, rfl⟩, ea, ⟨hw, rfl⟩, r, hr, m, ⟨hm, rfl⟩, pc, ⟨hpc, rfl⟩, h⟩
    exact ⟨ha, hb, hw, hm, hpc, r, hr, (Except.ok.inj h).symm⟩
  · rintro ⟨ha, hb, hw, hm, hpc, r, hr, rfl⟩
    exact ⟨(), isDestination_of_writable hw, _, ⟨ha, rfl⟩, _, ⟨hb, rfl⟩, _, ⟨hw, rfl⟩, r, hr, _, ⟨hm, rfl⟩, _,
      ⟨hpc, rfl⟩, rfl⟩

/-- Everything a jump can commit (43_branch.md R135, R136): the target when taken, else three words further. -/
theorem jumpWhen_eq_ok {s t : State} {c tg : Operand} {taken : Word → Bool} :
    jumpWhen s c tg taken = .ok t ↔
      readable s c = true ∧ readable s tg = true ∧
      ((taken (sourceValue s c) = true ∧ IsAddress (sourceValue s tg).toInt ∧
          t = { s with pc := (sourceValue s tg).toInt.toNat, status := .running }) ∨
        (taken (sourceValue s c) = false ∧ s.pc + 3 ≤ addrMax ∧
          t = { s with pc := s.pc + 3, status := .running })) := by
  simp only [jumpWhen, bind_eq_ok, resolveSrc_eq_ok]
  constructor
  · rintro ⟨x, ⟨hc, rfl⟩, y, ⟨ht, rfl⟩, h⟩
    refine ⟨hc, ht, ?_⟩
    split at h
    · rename_i hx
      simp only [bind_eq_ok, checkAddr_eq_ok] at h
      obtain ⟨pc, ⟨hp, rfl⟩, h⟩ := h
      exact .inl ⟨hx, hp, (Except.ok.inj h).symm⟩
    · rename_i hx
      simp only [bind_eq_ok, fallThrough_eq_ok] at h
      obtain ⟨pc, ⟨hp, rfl⟩, h⟩ := h
      exact .inr ⟨by simpa using hx, hp, (Except.ok.inj h).symm⟩
  · rintro ⟨hc, ht, h⟩
    refine ⟨_, ⟨hc, rfl⟩, _, ⟨ht, rfl⟩, ?_⟩
    rcases h with ⟨hx, hp, rfl⟩ | ⟨hx, hp, rfl⟩
    · rw [if_pos hx]
      exact bind_eq_ok.mpr ⟨_, checkAddr_eq_ok.mpr ⟨hp, rfl⟩, rfl⟩
    · rw [if_neg (by simp [hx])]
      exact bind_eq_ok.mpr ⟨_, fallThrough_eq_ok.mpr ⟨hp, rfl⟩, rfl⟩

end Sys2Proof.Machine
end

