-- ==== Sys2Proof/Laws/State.lean ====
section
/-! SUPPORT. One lemma per field per named update of `State`, so that no later proof unfolds a record update. -/

namespace Sys2Proof.Machine

section advance
variable (s : State) (pc : Nat)

@[simp] theorem State.advance_cfg : (s.advance pc).cfg = s.cfg := rfl
@[simp] theorem State.advance_pc : (s.advance pc).pc = pc := rfl
@[simp] theorem State.advance_rb : (s.advance pc).rb = s.rb := rfl
@[simp] theorem State.advance_status : (s.advance pc).status = .running := rfl
@[simp] theorem State.advance_fault : (s.advance pc).fault = s.fault := rfl
@[simp] theorem State.advance_iq : (s.advance pc).iq = s.iq := rfl
@[simp] theorem State.advance_oq : (s.advance pc).oq = s.oq := rfl
@[simp] theorem State.advance_mem : (s.advance pc).mem = s.mem := rfl

end advance

section setMem
variable (s : State) (m : Memory)

@[simp] theorem State.setMem_cfg : (s.setMem m).cfg = s.cfg := rfl
@[simp] theorem State.setMem_pc : (s.setMem m).pc = s.pc := rfl
@[simp] theorem State.setMem_rb : (s.setMem m).rb = s.rb := rfl
@[simp] theorem State.setMem_status : (s.setMem m).status = s.status := rfl
@[simp] theorem State.setMem_fault : (s.setMem m).fault = s.fault := rfl
@[simp] theorem State.setMem_iq : (s.setMem m).iq = s.iq := rfl
@[simp] theorem State.setMem_oq : (s.setMem m).oq = s.oq := rfl
@[simp] theorem State.setMem_mem : (s.setMem m).mem = m := rfl

end setMem

section setRb
variable (s : State) (v : Word)

@[simp] theorem State.setRb_cfg : (s.setRb v).cfg = s.cfg := rfl
@[simp] theorem State.setRb_pc : (s.setRb v).pc = s.pc := rfl
@[simp] theorem State.setRb_rb : (s.setRb v).rb = v := rfl
@[simp] theorem State.setRb_status : (s.setRb v).status = s.status := rfl
@[simp] theorem State.setRb_fault : (s.setRb v).fault = s.fault := rfl
@[simp] theorem State.setRb_iq : (s.setRb v).iq = s.iq := rfl
@[simp] theorem State.setRb_oq : (s.setRb v).oq = s.oq := rfl
@[simp] theorem State.setRb_mem : (s.setRb v).mem = s.mem := rfl

end setRb

section setIq
variable (s : State) (q : List Word)

@[simp] theorem State.setIq_cfg : (s.setIq q).cfg = s.cfg := rfl
@[simp] theorem State.setIq_pc : (s.setIq q).pc = s.pc := rfl
@[simp] theorem State.setIq_rb : (s.setIq q).rb = s.rb := rfl
@[simp] theorem State.setIq_status : (s.setIq q).status = s.status := rfl
@[simp] theorem State.setIq_fault : (s.setIq q).fault = s.fault := rfl
@[simp] theorem State.setIq_iq : (s.setIq q).iq = q := rfl
@[simp] theorem State.setIq_oq : (s.setIq q).oq = s.oq := rfl
@[simp] theorem State.setIq_mem : (s.setIq q).mem = s.mem := rfl

end setIq

section setOq
variable (s : State) (q : List Word)

@[simp] theorem State.setOq_cfg : (s.setOq q).cfg = s.cfg := rfl
@[simp] theorem State.setOq_pc : (s.setOq q).pc = s.pc := rfl
@[simp] theorem State.setOq_rb : (s.setOq q).rb = s.rb := rfl
@[simp] theorem State.setOq_status : (s.setOq q).status = s.status := rfl
@[simp] theorem State.setOq_fault : (s.setOq q).fault = s.fault := rfl
@[simp] theorem State.setOq_iq : (s.setOq q).iq = s.iq := rfl
@[simp] theorem State.setOq_oq : (s.setOq q).oq = q := rfl
@[simp] theorem State.setOq_mem : (s.setOq q).mem = s.mem := rfl

end setOq

section setStatus
variable (s : State) (st : Status)

@[simp] theorem State.setStatus_cfg : (s.setStatus st).cfg = s.cfg := rfl
@[simp] theorem State.setStatus_pc : (s.setStatus st).pc = s.pc := rfl
@[simp] theorem State.setStatus_rb : (s.setStatus st).rb = s.rb := rfl
@[simp] theorem State.setStatus_status : (s.setStatus st).status = st := rfl
@[simp] theorem State.setStatus_fault : (s.setStatus st).fault = s.fault := rfl
@[simp] theorem State.setStatus_iq : (s.setStatus st).iq = s.iq := rfl
@[simp] theorem State.setStatus_oq : (s.setStatus st).oq = s.oq := rfl
@[simp] theorem State.setStatus_mem : (s.setStatus st).mem = s.mem := rfl

end setStatus

section takeFault
variable (s : State) (w : Option Word) (t : Trap)

@[simp] theorem takeFault_cfg : (takeFault s w t).cfg = s.cfg := rfl
@[simp] theorem takeFault_pc : (takeFault s w t).pc = s.pc := rfl
@[simp] theorem takeFault_rb : (takeFault s w t).rb = s.rb := rfl
@[simp] theorem takeFault_status : (takeFault s w t).status = .faulted := rfl
@[simp] theorem takeFault_fault : (takeFault s w t).fault = some ⟨t.cause, s.pc, w, t.operand, t.value⟩ := rfl
@[simp] theorem takeFault_iq : (takeFault s w t).iq = s.iq := rfl
@[simp] theorem takeFault_oq : (takeFault s w t).oq = s.oq := rfl
@[simp] theorem takeFault_mem : (takeFault s w t).mem = s.mem := rfl

end takeFault

section raiseFault
variable (s : State) (t : Trap)

@[simp] theorem raiseFault_cfg : (raiseFault s t).cfg = s.cfg := rfl
@[simp] theorem raiseFault_pc : (raiseFault s t).pc = s.pc := rfl
@[simp] theorem raiseFault_rb : (raiseFault s t).rb = s.rb := rfl
@[simp] theorem raiseFault_status : (raiseFault s t).status = .faulted := rfl
@[simp] theorem raiseFault_fault : (raiseFault s t).fault = some ⟨t.cause, s.pc, some (s.mem.read s.pc), t.operand, t.value⟩ := rfl
@[simp] theorem raiseFault_iq : (raiseFault s t).iq = s.iq := rfl
@[simp] theorem raiseFault_oq : (raiseFault s t).oq = s.oq := rfl
@[simp] theorem raiseFault_mem : (raiseFault s t).mem = s.mem := rfl

end raiseFault

section usageAfterHalt
variable (s : State)

@[simp] theorem usageAfterHalt_cfg : (usageAfterHalt s).cfg = s.cfg := rfl
@[simp] theorem usageAfterHalt_pc : (usageAfterHalt s).pc = s.pc := rfl
@[simp] theorem usageAfterHalt_rb : (usageAfterHalt s).rb = s.rb := rfl
@[simp] theorem usageAfterHalt_status : (usageAfterHalt s).status = .faulted := rfl
@[simp] theorem usageAfterHalt_fault : (usageAfterHalt s).fault = some ⟨.usageAfterHalt, s.pc, none, none, none⟩ := rfl
@[simp] theorem usageAfterHalt_iq : (usageAfterHalt s).iq = s.iq := rfl
@[simp] theorem usageAfterHalt_oq : (usageAfterHalt s).oq = s.oq := rfl
@[simp] theorem usageAfterHalt_mem : (usageAfterHalt s).mem = s.mem := rfl

end usageAfterHalt

section resetWith
variable (s : State) (p : List Word)

@[simp] theorem resetWith_cfg : (resetWith s p).cfg = s.cfg := rfl
@[simp] theorem resetWith_pc : (resetWith s p).pc = 0 := rfl
@[simp] theorem resetWith_rb : (resetWith s p).rb = 0 := rfl
@[simp] theorem resetWith_status : (resetWith s p).status = .ready := rfl
@[simp] theorem resetWith_fault : (resetWith s p).fault = none := rfl
@[simp] theorem resetWith_iq : (resetWith s p).iq = [] := rfl
@[simp] theorem resetWith_oq : (resetWith s p).oq = [] := rfl
@[simp] theorem resetWith_mem : (resetWith s p).mem = Memory.ofWords 0 p := rfl

end resetWith

end Sys2Proof.Machine
end

