-- ==== Sys2Proof/Laws/Exec.lean ====
section
/-! SUPPORT. What `exec` can do, said once: it commits an instruction's effect or takes a fault, and an effect is one of a
few shapes. -/

namespace Sys2Proof.Machine

/-- Everything IN can commit (42_io.md R130): a suspension, or one value received. -/
theorem receive_eq_ok {s t : State} {d : Operand} :
    receive s d = .ok t ↔
      writable s d = true ∧
      ((s.iq = [] ∧ t = s.setStatus .waitingForInput) ∨
        ∃ v vs, s.iq = v :: vs ∧ admits s.cfg.memCapacity (storeAddress s d + 1) = true ∧ s.pc + 2 ≤ addrMax ∧
          t = { s with iq := vs, mem := s.mem.write (storeAddress s d) v, pc := s.pc + 2, status := .running }) := by
  simp only [receive, bind_eq_ok, resolveDst_eq_ok, checkDestination_eq_ok]
  constructor
  · rintro ⟨-, -, ea, ⟨hw, rfl⟩, h⟩
    refine ⟨hw, ?_⟩
    cases hq : s.iq with
    | nil =>
      rw [hq] at h
      exact .inl ⟨rfl, (Except.ok.inj h).symm⟩
    | cons v vs =>
      rw [hq] at h
      simp only [bind_eq_ok, storeWord_eq_ok, fallThrough_eq_ok] at h
      obtain ⟨m, ⟨hm, rfl⟩, pc, ⟨hp, rfl⟩, h⟩ := h
      exact .inr ⟨v, vs, rfl, hm, hp, (Except.ok.inj h).symm⟩
  · rintro ⟨hw, h⟩
    refine ⟨(), isDestination_of_writable hw, _, ⟨hw, rfl⟩, ?_⟩
    rcases h with ⟨hq, rfl⟩ | ⟨v, vs, hq, hm, hp, rfl⟩
    · rw [hq]
    · rw [hq]
      simp only [bind_eq_ok, storeWord_eq_ok, fallThrough_eq_ok]
      exact ⟨_, ⟨hm, rfl⟩, _, ⟨hp, rfl⟩, rfl⟩

/-- Everything OUT can commit (42_io.md R131). -/
theorem emit_eq_ok {s t : State} {a : Operand} :
    emit s a = .ok t ↔
      readable s a = true ∧ admits s.cfg.oqCapacity (s.oq.length + 1) = true ∧ s.pc + 2 ≤ addrMax ∧
        t = { s with oq := s.oq ++ [sourceValue s a], pc := s.pc + 2, status := .running } := by
  simp only [emit, bind_eq_ok, resolveSrc_eq_ok, pushOutput_eq_ok, fallThrough_eq_ok]
  constructor
  · rintro ⟨x, ⟨ha, rfl⟩, q, ⟨hq, rfl⟩, pc, ⟨hp, rfl⟩, h⟩
    exact ⟨ha, hq, hp, (Except.ok.inj h).symm⟩
  · rintro ⟨ha, hq, hp, rfl⟩
    exact ⟨_, ⟨ha, rfl⟩, _, ⟨hq, rfl⟩, _, ⟨hp, rfl⟩, rfl⟩

/-- Everything ARB can commit (45_relbase_halt.md R145). -/
theorem adjustBase_eq_ok {s t : State} {a : Operand} :
    adjustBase s a = .ok t ↔
      readable s a = true ∧ s.pc + 2 ≤ addrMax ∧
      ∃ r, wordResult s.cfg.overflow (s.rb.toInt + (sourceValue s a).toInt) = .ok r ∧
        t = { s with rb := r, pc := s.pc + 2, status := .running } := by
  simp only [adjustBase, bind_eq_ok, resolveSrc_eq_ok, fallThrough_eq_ok]
  constructor
  · rintro ⟨x, ⟨ha, rfl⟩, r, hr, pc, ⟨hp, rfl⟩, h⟩
    exact ⟨ha, hp, r, hr, (Except.ok.inj h).symm⟩
  · rintro ⟨ha, hp, r, hr, rfl⟩
    exact ⟨_, ⟨ha, rfl⟩, r, hr, _, ⟨hp, rfl⟩, rfl⟩

/-- What an instruction commits, or the fault it raises. -/
def effect (s : State) : Instr → Except Trap State
  | .add a b d => storeBinary s a b d fun x y => wordResult s.cfg.overflow (x.toInt + y.toInt)
  | .mul a b d => storeBinary s a b d fun x y => wordResult s.cfg.overflow (x.toInt * y.toInt)
  | .inp d     => receive s d
  | .out a     => emit s a
  | .jt c t    => jumpWhen s c t fun x => x ≠ 0
  | .jf c t    => jumpWhen s c t fun x => x = 0
  | .lt a b d  => storeBinary s a b d fun x y => .ok (conditionWord (x.toInt < y.toInt))
  | .eq a b d  => storeBinary s a b d fun x y => .ok (conditionWord (x = y))
  | .arb a     => adjustBase s a
  | .hlt       => .ok (s.setStatus .halted)

/-- Every instruction commits its effect or takes its fault (40_execution_cycle.md R106). -/
theorem exec_eq_commit (i : Instr) (s : State) : exec i s = commit s (effect s i) := by
  cases i <;> rfl

/-- Everything `exec` can answer. -/
theorem exec_eq_next {i : Instr} {s t : State} :
    exec i s = .next t ↔ effect s i = .ok t ∨ ∃ e, effect s i = .error e ∧ t = raiseFault s e := by
  rw [exec_eq_commit, commit_eq_next]

/-- `exec` always answers a next state. -/
theorem exec_answers (i : Instr) (s : State) : ∃ t, exec i s = .next t := by
  rw [exec_eq_commit]
  cases effect s i <;> simp

/-- The effective address of a writable operand is an address. -/
theorem storeAddress_le {s : State} {d : Operand} (h : writable s d = true) : storeAddress s d ≤ addrMax := by
  obtain ⟨x, hx, h0, h1⟩ := writable_iff.mp h
  simp only [storeAddress, hx]
  omega

/-- An instruction's write: one word, at the effective address of its destination, within the capacity (20_memory.md
R57). -/
def WritesDestination (s t : State) (i : Instr) : Prop :=
  ∃ k d v, i.destination = some (k, d) ∧ writable s d = true ∧
    admits s.cfg.memCapacity (storeAddress s d + 1) = true ∧ t.mem = s.mem.write (storeAddress s d) v

/-- What every effect has in common: the parameters and the fault record stay, the status is not Faulted, and each of the
other elements changes in one of a few ways. -/
theorem effect_common {s t : State} {i : Instr} (h : effect s i = .ok t) :
    t.cfg = s.cfg ∧ t.fault = s.fault ∧
      (t.status = .running ∨ (t.status = .waitingForInput ∧ s.iq = []) ∨ t.status = .halted) ∧
      (t.pc = s.pc ∨ t.pc ≤ addrMax) ∧
      (t.mem = s.mem ∨ WritesDestination s t i) ∧
      (t.iq = s.iq ∨ ∃ v, s.iq = v :: t.iq) ∧
      (t.oq = s.oq ∨ ∃ v, t.oq = s.oq ++ [v] ∧ admits s.cfg.oqCapacity (s.oq.length + 1) = true) := by
  have binary : ∀ {a b d f}, storeBinary s a b d f = .ok t →
      t.cfg = s.cfg ∧ t.fault = s.fault ∧ t.status = .running ∧ t.pc ≤ addrMax ∧ (writable s d = true ∧
        admits s.cfg.memCapacity (storeAddress s d + 1) = true ∧ ∃ v, t.mem = s.mem.write (storeAddress s d) v) ∧
        t.iq = s.iq ∧ t.oq = s.oq := fun h => by
    obtain ⟨-, -, hw, hm, hp, r, -, rfl⟩ := storeBinary_eq_ok.mp h
    exact ⟨rfl, rfl, rfl, hp, ⟨hw, hm, r, rfl⟩, rfl, rfl⟩
  have jump : ∀ {c tg k}, jumpWhen s c tg k = .ok t →
      t.cfg = s.cfg ∧ t.fault = s.fault ∧ t.status = .running ∧ t.pc ≤ addrMax ∧ t.mem = s.mem ∧
        t.iq = s.iq ∧ t.oq = s.oq := fun h => by
    obtain ⟨-, -, ⟨-, ⟨h0, h1⟩, rfl⟩ | ⟨-, hp, rfl⟩⟩ := jumpWhen_eq_ok.mp h
    · exact ⟨rfl, rfl, rfl, Int.toNat_le.mpr h1, rfl, rfl, rfl⟩
    · exact ⟨rfl, rfl, rfl, hp, rfl, rfl, rfl⟩
  cases i with
  | add a b d | mul a b d | lt a b d | eq a b d =>
    obtain ⟨h1, h2, h3, h4, ⟨hw, hm, v, hv⟩, h6, h7⟩ := binary h
    exact ⟨h1, h2, .inl h3, .inr h4, .inr ⟨2, d, v, rfl, hw, hm, hv⟩, .inl h6, .inl h7⟩
  | jt c tg | jf c tg =>
    obtain ⟨h1, h2, h3, h4, h5, h6, h7⟩ := jump h
    exact ⟨h1, h2, .inl h3, .inr h4, .inl h5, .inl h6, .inl h7⟩
  | inp d =>
    obtain ⟨hw, ⟨hq, rfl⟩ | ⟨v, vs, hq, hm, hp, rfl⟩⟩ := receive_eq_ok.mp h
    · exact ⟨rfl, rfl, .inr (.inl ⟨rfl, hq⟩), .inl rfl, .inl rfl, .inl rfl, .inl rfl⟩
    · exact ⟨rfl, rfl, .inl rfl, .inr hp, .inr ⟨0, d, v, rfl, hw, hm, rfl⟩, .inr ⟨v, hq⟩, .inl rfl⟩
  | out a =>
    obtain ⟨-, hq, hp, rfl⟩ := emit_eq_ok.mp h
    exact ⟨rfl, rfl, .inl rfl, .inr hp, .inl rfl, .inl rfl, .inr ⟨_, rfl, hq⟩⟩
  | arb a =>
    obtain ⟨-, hp, r, -, rfl⟩ := adjustBase_eq_ok.mp h
    exact ⟨rfl, rfl, .inl rfl, .inr hp, .inl rfl, .inl rfl, .inl rfl⟩
  | hlt =>
    cases h
    exact ⟨rfl, rfl, .inr (.inr rfl), .inl rfl, .inl rfl, .inl rfl, .inl rfl⟩

end Sys2Proof.Machine
end

