-- ==== Sys2Proof/Laws/Step.lean ====
section
/-! SUPPORT. What one step can do, said once (40_execution_cycle.md R101). -/

namespace Sys2Proof.Machine

/-- In a live status a step is one instruction attempt. -/
theorem step_of_live {s : State} (h : s.status.isLive = true) : step s = liveStep s := by
  unfold step cycle
  cases hs : s.status <;> simp_all [Status.isLive]

theorem step_of_halted {s : State} (h : s.status = .halted) : step s = .next (usageAfterHalt s) := by
  unfold step cycle
  rw [h]

theorem step_of_faulted {s : State} (h : s.status = .faulted) : step s = .refused .engineFaulted := by
  unfold step cycle
  rw [h]

/-- Everything a step that answers a next state did: USAGE_AFTER_HALT, the fault of a fetch, or the fetched
instruction. -/
theorem step_eq_next {s t : State} :
    step s = .next t ↔
      (s.status = .halted ∧ t = usageAfterHalt s) ∨
      (s.status.isLive = true ∧ s.pc ≤ addrMax ∧
        ((∃ e, fetch s = .error e ∧ t = raiseFault s e) ∨ ∃ i, fetch s = .ok i ∧ exec i s = .next t)) := by
  by_cases hl : s.status.isLive = true
  · have hnh : s.status ≠ .halted := fun h => by simp [h, Status.isLive] at hl
    rw [step_of_live hl, liveStep]
    by_cases hp : s.pc ≤ addrMax
    · rw [if_pos hp]
      cases hf : fetch s <;> simp [hl, hp, hnh, eq_comm]
    · rw [if_neg hp]
      simp [hp, hnh]
  · cases hs : s.status with
    | halted => simp [step_of_halted hs, Status.isLive, eq_comm]
    | faulted => simp [step_of_faulted hs, Status.isLive]
    | ready | running | waitingForInput => simp [hs, Status.isLive] at hl

/-- A step's next state is a fault's, or an instruction's effect. -/
theorem step_cases {s t : State} (h : step s = .next t) :
    (∃ w e, t = takeFault s w e) ∨ ∃ i, fetch s = .ok i ∧ effect s i = .ok t ∧ s.status.isLive = true := by
  rcases step_eq_next.mp h with ⟨-, rfl⟩ | ⟨hl, -, ⟨e, -, rfl⟩ | ⟨i, hi, hx⟩⟩
  · exact .inl ⟨_, _, rfl⟩
  · exact .inl ⟨_, _, rfl⟩
  · rcases exec_eq_next.mp hx with h | ⟨e, -, rfl⟩
    · exact .inr ⟨i, hi, h, hl⟩
    · exact .inl ⟨_, _, rfl⟩

end Sys2Proof.Machine
end

