-- ==== Sys2Proof/Laws/Host.lean ====
section
/-! SUPPORT. What the host's arguments become, and how a RUN goes on (49_host_interface.md, 40_execution_cycle.md R110). -/

namespace Sys2Proof.Machine

/-- The values of words are words (00_scope.md R7). -/
@[simp] theorem wordsOf_map_toInt (ws : List Word) : wordsOf (ws.map BitVec.toInt) = some ws := by
  induction ws with
  | nil => rfl
  | cons w ws ih =>
    have := isWord_toInt w
    simp only [List.map, wordsOf]
    rw [if_pos this, ih]
    simp

/-- Integers that are words are the values of those words. -/
theorem eq_map_of_wordsOf {vs : List Int} {ws : List Word} (h : wordsOf vs = some ws) : vs = ws.map BitVec.toInt := by
  induction vs generalizing ws with
  | nil =>
    cases h
    rfl
  | cons v vs ih =>
    simp only [wordsOf] at h
    split at h
    · rename_i hw
      simp only [Option.map_eq_some_iff] at h
      obtain ⟨a, ha, rfl⟩ := h
      simp [← ih ha, toInt_ofInt_of_isWord hw]
    · simp at h

/-- `wordsOf` fails exactly where some integer is no word. -/
theorem wordsOf_eq_none {vs : List Int} : wordsOf vs = none ↔ ∃ v ∈ vs, ¬IsWord v := by
  constructor
  · intro h
    induction vs with
    | nil => simp [wordsOf] at h
    | cons v vs ih =>
      simp only [wordsOf] at h
      split at h
      · simp only [Option.map_eq_none_iff] at h
        obtain ⟨x, hx, hy⟩ := ih h
        exact ⟨x, by simp [hx], hy⟩
      · exact ⟨v, by simp, by assumption⟩
  · rintro ⟨v, hv, hn⟩
    cases h : wordsOf vs with
    | none => rfl
    | some ws =>
      rw [eq_map_of_wordsOf h] at hv
      obtain ⟨w, -, rfl⟩ := List.mem_map.mp hv
      exact absurd (isWord_toInt w) hn

theorem length_of_wordsOf {vs : List Int} {ws : List Word} (h : wordsOf vs = some ws) : ws.length = vs.length := by
  rw [eq_map_of_wordsOf h]
  simp

/-- Characters with codes up to 127 have those codes (R154). -/
theorem asciiCodes_eq_some {cs : List Char} (h : ∀ c ∈ cs, c.toNat ≤ 127) :
    asciiCodes cs = some (cs.map fun c => (c.toNat : Int)) := by
  induction cs with
  | nil => rfl
  | cons c cs ih =>
    simp only [asciiCodes]
    rw [if_pos (h c (by simp)), ih fun c hc => h c (by simp [hc])]
    rfl

theorem asciiCodes_eq_none {cs : List Char} (h : ∃ c ∈ cs, 127 < c.toNat) : asciiCodes cs = none := by
  induction cs with
  | nil => simp at h
  | cons c cs ih =>
    simp only [asciiCodes]
    split
    · rename_i hc
      obtain ⟨d, hd, hh⟩ := h
      rcases List.mem_cons.mp hd with rfl | hd
      · omega
      · rw [ih ⟨d, hd, hh⟩]
        rfl
    · rfl

/-- A RUN from a live status is the loop from Running (40_execution_cycle.md R110). -/
theorem command_run_of_live {fuel : Nat} {s : State} (h : s.status.isLive = true) :
    command fuel .run s = runLoop fuel (s.setStatus .running) := by
  cases hs : s.status <;> simp_all [Status.isLive, command, hostRun]

/-- A status that does not stop a RUN is live. -/
theorem isLive_of_not_stopsRun {st : Status} (h : ¬st.stopsRun = true) : st.isLive = true := by
  cases st <;> simp_all [Status.stopsRun, Status.isLive]

/-- A RUN stops in Halted, WaitingForInput and Faulted. -/
theorem stopsRun_iff {st : Status} : st.stopsRun = true ↔ st = .halted ∨ st = .waitingForInput ∨ st = .faulted := by
  cases st <;> simp [Status.stopsRun]

end Sys2Proof.Machine
end

