-- ==== Sys2Proof/Laws/PerInstr.lean ====
section
/-! SUPPORT. Statements for every instruction, proved per instruction: the length and the opcode field of its encoding. -/

namespace Sys2Proof.Laws.EncodedLength

/-- R70, R71, R88: an instruction's encoding has as many words as the instruction is long, which is 1 to 4, and the
number of its instruction word has the opcode in its two lowest decimal digits, and five digits at most. -/
def Statement (i : Instr) : Prop :=
  (encode i).length = i.length ∧ 1 ≤ i.length ∧ i.length ≤ 4 ∧ i.wordNumber % 100 = i.opcode.code ∧
    i.wordNumber < 100000

/-- What all ten share: the mode digits are below 3, so the opcode's digits are not disturbed. -/
theorem of_operands (i : Instr) (hl : i.operands.length = i.opcode.operandCount) : Statement i := by
  have bounds : ∀ op : Opcode, op.operandCount ≤ 3 ∧ op.code < 100 := by
    rintro (_ | o | o | o)
    · decide
    all_goals cases o <;> decide
  obtain ⟨hc, ho⟩ := bounds i.opcode
  have hm : ∀ os : List Operand, modeNumber os < 10 ^ os.length := by
    intro os
    induction os with
    | nil => simp [modeNumber]
    | cons o os ih =>
      have := Mode.toDigit_lt o.mode
      rw [modeNumber, List.length_cons, pow_succ]
      omega
  have h3 : modeNumber i.operands < 1000 :=
    lt_of_lt_of_le (hm i.operands) (le_trans (Nat.pow_le_pow_right (by omega) (hl ▸ hc)) (by norm_num))
  have hw : i.wordNumber = i.opcode.code + 100 * modeNumber i.operands := rfl
  have hn : i.length = 1 + i.opcode.operandCount := rfl
  refine ⟨?_, ?_, ?_, ?_, ?_⟩
  · simp [encode, hl, hn, Nat.add_comm]
  all_goals omega

theorem add (a b d : Operand) : Statement (.add a b d) := of_operands _ rfl

theorem mul (a b d : Operand) : Statement (.mul a b d) := of_operands _ rfl

theorem inp (d : Operand) : Statement (.inp d) := of_operands _ rfl

theorem out (a : Operand) : Statement (.out a) := of_operands _ rfl

theorem jt (c t : Operand) : Statement (.jt c t) := of_operands _ rfl

theorem jf (c t : Operand) : Statement (.jf c t) := of_operands _ rfl

theorem lt (a b d : Operand) : Statement (.lt a b d) := of_operands _ rfl

theorem eq (a b d : Operand) : Statement (.eq a b d) := of_operands _ rfl

theorem arb (a : Operand) : Statement (.arb a) := of_operands _ rfl

theorem hlt : Statement .hlt := of_operands _ rfl

end Sys2Proof.Laws.EncodedLength
end

