-- ==== Sys2Proof/Tests/Slice0.lean ====
section
/-! SUPPORT. The model's own tests. Every expected value is worked out from the spec's rules or is one of its vectors
(95_test_vectors.md, whose names TD, TA, TI, TJ, TC, TR, TL, TH and S are used here). After them, one witness for each
obligation that has hypotheses. -/

namespace Sys2Proof.Tests

open Sys2Proof Sys2Proof.Machine

/-! ## Helpers -/

/-- The engine right after `RESET` with an image, with these parameters. -/
def startWith (cfg : Config) (image : List Int) : State :=
  resetWith { State.reset with cfg := cfg } (image.map (BitVec.ofInt 64))

/-- The engine right after `RESET` with an image, with the default parameters. -/
def start (image : List Int) : State := startWith Config.default image

/-- The next state an outcome gives, if it gives one. -/
def next? : Result → Option State
  | .next t    => some t
  | .fault _   => none
  | .refused _ => none

theorem eq_next_of_next? {o : Result} {t : State} (h : next? o = some t) : o = .next t := by
  cases o <;> simp_all [next?]

/-- The state after one step, or the state itself where the step stops. -/
def after (s : State) : State := (next? (step s)).getD s

/-- The fault record after one step. -/
def faultAfter (s : State) : Option FaultRecord := (after s).fault

/-- A step from `s` gives a next state, and it is `after s`. -/
theorem step_eq_after {s : State} (h : (next? (step s)).isSome = true) : step s = .next (after s) := by
  unfold after
  cases hs : step s <;> simp_all [next?]

/-! ## Well-formedness: an ill-formed term for each check -/

theorem test_wf_refuses_immediate_destinations :
    (Instr.add (.positional 9) (.immediate 1) (.immediate 3)).wf = false ∧
    (Instr.mul (.positional 9) (.immediate 1) (.immediate 3)).wf = false ∧
    (Instr.lt (.positional 9) (.immediate 1) (.immediate 3)).wf = false ∧
    (Instr.eq (.positional 9) (.immediate 1) (.immediate 3)).wf = false ∧
    (Instr.inp (.immediate 5)).wf = false := by decide

/-- Mode 1 is legal for every source, a jump's target included (R78). -/
theorem test_wf_accepts_immediate_sources :
    (Instr.add (.immediate 9) (.immediate 1) (.relative (-3))).wf = true ∧ (Instr.out (.immediate 5)).wf = true ∧
    (Instr.jt (.immediate 1) (.immediate (-5))).wf = true ∧ (Instr.jf (.immediate 0) (.immediate 9)).wf = true ∧
    (Instr.arb (.immediate 19)).wf = true ∧ Instr.hlt.wf = true := by decide

/-! ## Decoding: words written out digit by digit from 30_encoding.md R71 and R72 -/

-- C = 0, B = 0, A = 2, OO = 01: ADD, operand 0 relative.
theorem test_decode_add : decode .fault [201, -4, 6, 7] =
    .ok (.add (.relative (-4)) (.positional 6) (.positional 7), []) := by decide

-- C = 2, B = 1, A = 0, OO = 02: MUL, operand 1 immediate, destination relative.
theorem test_decode_mul : decode .fault [21002, 5, -3, 8] =
    .ok (.mul (.positional 5) (.immediate (-3)) (.relative 8), []) := by decide

-- A = 0, OO = 03, and the word after it is left over.
theorem test_decode_inp : decode .fault [3, 5, 99] = .ok (.inp (.positional 5), [99]) := by decide

-- A = 2, OO = 04.
theorem test_decode_out : decode .fault [204, -1] = .ok (.out (.relative (-1)), []) := by decide

-- B = 1, A = 2, OO = 05: the condition relative, the target immediate.
theorem test_decode_jt : decode .fault [1205, 20, 2] = .ok (.jt (.relative 20) (.immediate 2), []) := by decide

-- B = 2, A = 1, OO = 06: the condition immediate, the target relative.
theorem test_decode_jf : decode .fault [2106, 0, 9] = .ok (.jf (.immediate 0) (.relative 9), []) := by decide

-- C = 0, B = 1, A = 1, OO = 07.
theorem test_decode_lt : decode .fault [1107, 3, 5, 0] =
    .ok (.lt (.immediate 3) (.immediate 5) (.positional 0), []) := by decide

-- C = 2, B = 0, A = 1, OO = 08.
theorem test_decode_eq : decode .fault [20108, 10, 52, 53] =
    .ok (.eq (.immediate 10) (.positional 52) (.relative 53), []) := by decide

-- A = 1, OO = 09.
theorem test_decode_arb : decode .fault [109, -50] = .ok (.arb (.immediate (-50)), []) := by decide

-- OO = 99.
theorem test_decode_hlt : decode .fault [99, 1] = .ok (.hlt, [1]) := by decide

-- TD3, TD4, TD5, TD6: negative words and unknown opcodes.
theorem test_decode_invalid_opcode :
    decodeWord .fault (-1) = .error .invalidOpcode ∧ decodeWord .ignore (-99) = .error .invalidOpcode ∧
    decodeWord .fault 10 = .error .invalidOpcode ∧ decodeWord .fault 98 = .error .invalidOpcode := by decide

-- TD7, TD8, TD9.
theorem test_decode_invalid_mode :
    decodeWord .fault 301 = .error (.invalidMode 0 3) ∧ decodeWord .fault 3301 = .error (.invalidMode 0 3) ∧
    decodeWord .fault 31101 = .error (.invalidMode 2 3) := by decide

-- TD10 to TD16.
theorem test_decode_high_digits :
    decodeWord .fault 100099 = .error (.highDigits 1000) ∧ decodeWord .ignore 100099 = .ok .f0 ∧
    decodeWord .fault 199 = .error (.highDigits 1) ∧ decodeWord .fault 1003 = .error (.highDigits 1) ∧
    decodeWord .ignore 300004 = .ok (.f1 .out .positional) ∧
    decodeWord .fault 130004 = .error (.highDigits 130) := by decide

-- TD17, TD18, TD19.
theorem test_decode_immediate_destination :
    decodeWord .fault 111101 = .error (.highDigits 1) ∧ decodeWord .fault 11101 = .error (.immediateDestination 2) ∧
    decodeWord .fault 103 = .error (.immediateDestination 0) := by decide

/-- The words of the largest and of the shortest instruction, by R88's formula. -/
theorem test_encode :
    encode (.eq (.relative 0) (.relative 1) (.relative (-2))) = [22208, 0, 1, -2] ∧ encode .hlt = [99] := by decide

/-- The host's question: the four words of `ADD #1, [-1], [3]` as one number, and the word 99 as one byte. -/
theorem test_decode_table_word :
    decodeTableWord 256 (101 + 1 * 2 ^ 64 + (2 ^ 64 - 1) * 2 ^ 128 + 3 * 2 ^ 192) =
      some (.add (.immediate 1) (.positional (-1)) (.positional 3)) ∧
    decodeTableWord 8 99 = some .hlt ∧ decodeTableWord 8 0 = none := by decide

/-- The instruction placed after reset is the first that runs. -/
theorem test_with_fetch_word :
    (after (State.reset.withFetchWord 256 (109 + 19 * 2 ^ 64))).rb = 19 ∧
    (after (State.reset.withFetchWord 8 99)).status = .halted := by decide

/-! ## One step of each instruction -/

-- TA3: the reads come before the write.
theorem test_add_overwrites_itself :
    (after (start [1, 0, 0, 0, 99])).mem.read 0 = 2 ∧ (after (start [1, 0, 0, 0, 99])).pc = 4 := by decide

-- TA5, TA6.
theorem test_add_overflow :
    faultAfter (start [1101, 9223372036854775807, 1, 5, 99, 0]) =
      some ⟨.arithmeticOverflow, 0, some 1101, none, some 9223372036854775808⟩ ∧
    (after (startWith { Config.default with overflow := .wrap } [1101, 9223372036854775807, 1, 5, 99, 0])).mem.read 5 =
      BitVec.ofInt 64 wordMin := by decide

-- S4.
theorem test_mul_large : (after (start [1102, 34915192, 34915192, 7, 4, 7, 99, 0])).mem.read 7 = 1219070632396864 := by
  decide

-- TA8, and the first step of TA17.
theorem test_mul_sign_and_overflow :
    faultAfter (start [1102, 4294967296, 2147483648, 5, 99, 0]) =
      some ⟨.arithmeticOverflow, 0, some 1102, none, some 9223372036854775808⟩ ∧
    (after (start [1102, -3, 7, 5, 4, 5, 99])).mem.read 5 = -21 := by decide

-- R130's example: with a value, and with none.
theorem test_inp_receives_or_suspends :
    ((after { start [3, 5, 99] with iq := [7] }).mem.read 5, (after { start [3, 5, 99] with iq := [7] }).iq,
      (after { start [3, 5, 99] with iq := [7] }).pc) = ((7 : Word), ([] : List Word), 2) ∧
    after (start [3, 5, 99]) = { start [3, 5, 99] with status := .waitingForInput } := by decide

-- TI4 and TI8: an address fault comes before suspension, and a faulting IN keeps its value.
theorem test_inp_faults :
    faultAfter (start [3, -1]) = some ⟨.negativeAddress, 0, some 3, some 0, some (-1)⟩ ∧
    (after { startWith { Config.default with memCapacity := .finite 8 } [3, 10, 99] with iq := [4] }).iq = [4] ∧
    faultAfter { startWith { Config.default with memCapacity := .finite 8 } [3, 10, 99] with iq := [4] } =
      some ⟨.memoryCapacity, 0, some 3, some 0, some 10⟩ := by decide

-- S1.
theorem test_out_large : (after (start [104, 1125899906842624, 99])).oq = [1125899906842624] := by decide

-- TI14.
theorem test_out_full :
    faultAfter (startWith { Config.default with oqCapacity := .finite 0 } [104, 1, 99]) =
      some ⟨.outputQueueFull, 0, some 104, none, none⟩ := by decide

-- TJ3 and TJ2.
theorem test_jt : (after (start [1105, -5, 4, 0, 99])).pc = 4 ∧ (after (start [1105, 0, 7, 99])).pc = 3 := by decide

-- TJ6 and TJ8: a negative target, taken, and one that is not taken but resolved.
theorem test_jt_faults :
    faultAfter (start [1105, 1, -5]) = some ⟨.negativeAddress, 0, some 1105, some 1, some (-5)⟩ ∧
    faultAfter (start [105, 0, -7, 99]) = some ⟨.negativeAddress, 0, some 105, some 1, some (-7)⟩ := by decide

-- TJ4 and TJ5.
theorem test_jf : (after (start [1106, 0, 4, 0, 99])).pc = 4 ∧ (after (start [1106, 1, -5, 99])).pc = 3 := by decide

-- TJ7.
theorem test_jf_fault :
    faultAfter (start [1106, 0, -1]) = some ⟨.negativeAddress, 0, some 1106, some 1, some (-1)⟩ := by decide

-- TC3 and TC4.
theorem test_lt : (after (start [1107, 4, 4, 5, 99, -1])).mem.read 5 = 0 ∧
    (after (start [1107, -1, 0, 5, 99, 7])).mem.read 5 = 1 := by decide

-- TC5 and TC6.
theorem test_lt_signed :
    (after (start [1107, -9223372036854775808, 9223372036854775807, 5, 99, 0])).mem.read 5 = 1 ∧
    (after (start [7, 5, 6, 7, 99, -9, 2, 0])).mem.read 7 = 1 := by decide

-- TC7 and TC8.
theorem test_eq : (after (start [1108, 4, 4, 5, 99, -1])).mem.read 5 = 1 ∧
    (after (start [1108, 4, 5, 5, 99, -1])).mem.read 5 = 0 := by decide

-- TC10's second step: the HLT at 6 is overwritten with 0.
theorem test_eq_relative :
    (after { start [109, 4, 22208, 0, 1, 2, 99] with pc := 2, rb := 4 }).mem.read 6 = 0 := by decide

-- R145's examples.
theorem test_arb : (after { start [109, 19] with rb := 2000 }).rb = 2019 ∧ (after (start [109, -7])).rb = -7 := by decide

-- TR3's second step: `209,1` reads `M[3+1] = 99` with the old `rb`.
theorem test_arb_relative : (after { start [109, 3, 209, 1, 99, 6] with pc := 2, rb := 3 }).rb = 102 := by decide

-- TR8 and TL3.
theorem test_hlt : after (start [99]) = { start [99] with status := .halted } ∧
    (after { start [] with mem := [(addrMax, 99)], pc := addrMax }).pc = addrMax := by decide

-- TR9: the second STEP.
theorem test_step_after_halt :
    faultAfter (after (start [99])) = some ⟨.usageAfterHalt, 0, none, none, none⟩ := by decide

/-! ## Faults of the fetch and of the next pc -/

-- TD1: the first step from the empty image.
theorem test_empty_image : faultAfter State.reset = some ⟨.invalidOpcode, 0, some 0, none, none⟩ := by decide

-- TL1.
theorem test_operand_word_above_top :
    faultAfter { start [] with mem := [(addrMax, 4)], pc := addrMax } =
      some ⟨.addressOverflow, addrMax, some 4, some 0, some 9223372036854775808⟩ := by decide

-- TL2.
theorem test_next_pc_above_top :
    (faultAfter { start [] with mem := [(addrMax - 1, 104), (addrMax, 5)], pc := addrMax - 1 },
      (after { start [] with mem := [(addrMax - 1, 104), (addrMax, 5)], pc := addrMax - 1 }).oq) =
      (some ⟨.addressOverflow, addrMax - 1, some 104, none, some 9223372036854775808⟩, ([] : List Word)) := by decide

-- TA16's second step: a relative address above the top, whatever `OVERFLOW_MODE` is.
theorem test_relative_address_overflow :
    faultAfter { startWith { Config.default with overflow := .wrap } [109, 0, 2201, 1, 0, 0, 99] with
        pc := 2, rb := 9223372036854775807 } =
      some ⟨.addressOverflow, 2, some 2201, some 0, some 9223372036854775808⟩ := by decide

/-! ## Host commands (49_host_interface.md) -/

/-- The responses to commands, one after another. -/
def responses (fuel : Nat) (cs : List Command) (s : State) : Option (List Response) := (commands fuel cs s).map (·.1)

-- TH10 and TH11.
theorem test_input_commands :
    (commands 0 [.peekIn, .pushSeq [5, 6], .peekIn, .pushAscii ['A', '\n'], .pushAscii ['é']] (start [99])).map
      (fun p => (p.1, p.2.iq)) =
    some ([.nothing, .ok, .value 5, .ok, .refused .notAscii], [5, 6, 65, 10]) := by decide

-- TH12.
theorem test_input_capacity :
    (commands 0 [.push 1, .pushSeq [2, 3], .push 2, .push 3]
      (startWith { Config.default with iqCapacity := .finite 2 } [99])).map (fun p => (p.1, p.2.iq)) =
    some ([.ok, .refused .iqFull, .ok, .refused .iqFull], [1, 2]) := by decide

-- S7.
theorem test_pop_n :
    (commands 0 [.popN 5, .popN 3, .popN 0, .popN (-1), .popN 1, .popOut] { start [99] with oq := [1, 2, 3, 4] }).map
      (fun p => (p.1, p.2.oq)) =
    some ([.notEnough, .list [1, 2, 3], .list [], .refused .badValue, .list [4], .nothing], []) := by decide

-- TH9.
theorem test_pop_last :
    responses 0 [.popLast, .popOut] { start [99] with oq := [1, 2, 3, 4] } = some [.value 4, .nothing] := by decide

-- TH13.
theorem test_memory_commands :
    responses 0 [.memPeek (-1), .memPeek 5, .memPoke (-1) 0, .memPoke 5 9223372036854775808, .memPoke 5 (-7), .memPeek 5]
      (start [99]) =
    some [.refused .badAddress, .value 0, .refused .badAddress, .refused .badValue, .ok, .value (-7)] := by decide

-- TH14.
theorem test_memory_capacity :
    responses 0 [.memPoke 4 1, .memPoke 3 1, .memPeek 100]
      (startWith { Config.default with memCapacity := .finite 4 } [99]) =
    some [.refused .memCapacity, .ok, .value 0] := by decide

-- TH6, TH7 and TH8: a Faulted engine, and the reset that leaves it.
theorem test_faulted_and_reset :
    responses 1 [.run, .step, .run, .reset [99], .getStatus, .memPeek 0, .reset [9223372036854775808], .isHalted]
      (start [0]) =
    some [.status .faulted (some ⟨.invalidOpcode, 0, some 0, none, none⟩),
      .refusedFaulted .faulted (some ⟨.invalidOpcode, 0, some 0, none, none⟩),
      .refused .engineFaulted, .ok, .status .ready none, .value 99,
      .refused .badImage, .bool false] := by decide

-- S2: the echo program, with a RUN that suspends first.
theorem test_echo :
    responses 3 [.run, .run, .push 42, .run, .observe, .popOut, .run] (start [3, 0, 4, 0, 99]) =
    some [.status .waitingForInput none, .status .waitingForInput none, .ok, .status .halted none, .observed 4 0,
      .value 42, .status .faulted (some ⟨.usageAfterHalt, 4, none, none, none⟩)] := by decide

-- R111, TJ11: a loop exhausts the fuel, which is an outcome of its own.
theorem test_fuel : command 2 .run (start [1105, 1, 0]) =
    .fuelExhausted { start [1105, 1, 0] with status := .running } := by decide

/-- The codes of R24 and R181. -/
theorem test_codes :
    [Status.ready, .running, .waitingForInput, .halted, .faulted].map Status.code = [0, 1, 2, 3, 4] ∧
    [Cause.invalidOpcode, .invalidMode, .highDigits, .immediateDestination, .negativeAddress, .addressOverflow,
      .arithmeticOverflow, .memoryCapacity, .outputQueueFull, .usageAfterHalt].map Cause.code =
      [1, 2, 3, 4, 5, 6, 7, 8, 9, 10] := by decide

/-- Construction with an image and parameters (R201), and an image longer than the memory. -/
theorem test_construct :
    construct { Config.default with memCapacity := .finite 1 } [99] =
      some (startWith { Config.default with memCapacity := .finite 1 } [99]) ∧
    construct { Config.default with memCapacity := .finite 1 } [99, 0] = none := by decide

/-! ## The assembler (R87 to R89) -/

-- R87's example.
theorem test_assemble : assemble "ADD [9], #-1, [rb+3] ; subtract one".toList = some [21001, 9, -1, 3] := by decide

-- A label, a pseudo-instruction and `.word`: P1's end, and R89's JMP.
theorem test_assemble_label :
    assemble "top: OUT [rb-1]\nJMP #top\nHLT\n.word -1, 8".toList = some [204, -1, 1105, 1, 0, 99, -1, 8] := by decide

-- R88: "An assembler refuses an immediate destination".
theorem test_assemble_refuses : assemble "IN #5".toList = none := by decide

/-! ## Witnesses: for each obligation with hypotheses, states and operands that meet all of them, for each clause -/

/-- Parameters with finite capacities, so that boundaries can be met. -/
def tight : Config where
  memCapacity := .finite 8
  iqCapacity  := .finite 2
  oqCapacity  := .finite 1
  overflow    := .fault
  highDigits  := .fault

/-- A state no run from reset need reach: a negative `rb`, cells up to the capacity, queues in use. -/
def busy : State where
  cfg    := tight
  pc     := addrMax - 4
  rb     := -3
  status := .waitingForInput
  fault  := none
  iq     := [7, 8]
  oq     := []
  mem    := [(0, 9223372036854775807), (2, -1), (7, 5)]

/-- The same state with `wrap`. -/
def wrapping : State := { busy with cfg := { tight with overflow := .wrap } }

/-- The states with one instruction's words at the last addresses. -/
def atTop (pc : Nat) (mem : Memory) : State := { State.reset with pc := pc, mem := mem }

theorem witness_decodeOfEncode :
    (Instr.add (.positional (-1)) (.immediate 9223372036854775807) (.relative (-9223372036854775808))).wf = true ∧
    (Instr.inp (.relative 0)).wf = true ∧ Instr.hlt.wf = true := by decide

theorem witness_encodeOfDecode : decode .fault [22208, 0, 1, -2, 99] =
    .ok (.eq (.relative 0) (.relative 1) (.relative (-2)), [99]) := by decide

theorem witness_decodedInstructionIsWellFormed :
    decode .ignore [300004, 0] = .ok (.out (.positional 0), []) ∧ decode .fault [203, -3] = .ok (.inp (.relative (-3)), []) := by
  decide

theorem witness_legalWordsDecode : (∃ sh, decodeWord .fault 22201 = .ok sh ∧ sh.opcode = .f3 .add) ∧
    (22201 : Int) ∈ legalWordsOf (.f3 .add) ∧ 0 ≤ (300004 : Word).toInt := by
  refine ⟨⟨.f3 .add .relative .relative .relative, ?_⟩, ?_⟩ <;> decide

theorem witness_negativeOrUnknownOpcodeFaults :
    ∃ s u : State, (s.status.isLive = true ∧ s.pc ≤ addrMax ∧ (s.mem.read s.pc).toInt < 0) ∧
      (u.status.isLive = true ∧ u.pc ≤ addrMax ∧ 0 ≤ (u.mem.read u.pc).toInt ∧
        (u.mem.read u.pc).toInt % 100 ∉ ([1, 2, 3, 4, 5, 6, 7, 8, 9, 99] : List Int)) :=
  ⟨start [-1], atTop addrMax [(addrMax, 98)], by decide, by decide⟩

theorem witness_badModeDigitFaults :
    (∀ c ∈ ([(301, .f3 .add, 0), (3005, .f2 .jt, 1), (92008, .f3 .eq, 2)] : List (Int × Opcode × OperandIndex)),
      (start [c.1]).status.isLive = true ∧ (start [c.1]).pc ≤ addrMax ∧ 0 ≤ ((start [c.1]).mem.read 0).toInt ∧
      Opcode.ofCode (((start [c.1]).mem.read 0).toInt % 100).toNat = some c.2.1 ∧ c.2.2.val < c.2.1.operandCount ∧
      (∀ j : OperandIndex, j < c.2.2 → digit ((start [c.1]).mem.read 0).toNat (2 + j) ≤ 2) ∧
      2 < digit ((start [c.1]).mem.read 0).toNat (2 + c.2.2)) := by decide

theorem witness_highDigitsByMode :
    (∀ c ∈ ([(199, .f0), (1003, .f1 .inp), (10005, .f2 .jt), (111101, .f3 .add)] : List (Int × Opcode)),
      (start [c.1]).status.isLive = true ∧ (start [c.1]).pc ≤ addrMax ∧ (start [c.1]).cfg.highDigits = .fault ∧
      0 ≤ ((start [c.1]).mem.read 0).toInt ∧
      Opcode.ofCode (((start [c.1]).mem.read 0).toInt % 100).toNat = some c.2 ∧
      (∀ j : OperandIndex, j.val < c.2.operandCount → digit ((start [c.1]).mem.read 0).toNat (2 + j) ≤ 2) ∧
      high ((start [c.1]).mem.read 0).toNat (2 + c.2.operandCount) ≠ 0) ∧
    (0 ≤ (300204 : Word).toInt ∧ Opcode.ofCode ((300204 : Word).toInt % 100).toNat = some (.f1 .out) ∧
      (204 : Word).toInt = (300204 : Word).toInt % 10 ^ (2 + Opcode.operandCount (.f1 .out))) := by decide

theorem witness_immediateDestinationFaults :
    ∀ c ∈ ([(103, .f1 .inp, 0), (11101, .f3 .add, 2), (11208, .f3 .eq, 2)] : List (Int × Opcode × OperandIndex)),
      (start [c.1]).status.isLive = true ∧ (start [c.1]).pc ≤ addrMax ∧ 0 ≤ ((start [c.1]).mem.read 0).toInt ∧
      Opcode.ofCode (((start [c.1]).mem.read 0).toInt % 100).toNat = some c.2.1 ∧
      destinationIndex c.2.1 = some c.2.2 ∧
      (∀ j : OperandIndex, j.val < c.2.1.operandCount → digit ((start [c.1]).mem.read 0).toNat (2 + j) ≤ 2) ∧
      ((start [c.1]).cfg.highDigits = .fault → high ((start [c.1]).mem.read 0).toNat (2 + c.2.1.operandCount) = 0) ∧
      digit ((start [c.1]).mem.read 0).toNat (2 + c.2.2) = 1 := by decide

theorem witness_stepRunsDecodedInstruction :
    ((start [1, 0, 0, 0]).status.isLive = true ∧ (start [1, 0, 0, 0]).pc + 4 ≤ addrMax + 1 ∧
      decode .fault ((start [1, 0, 0, 0]).mem.readWords 0 4) =
        .ok (.add (.positional 0) (.positional 0) (.positional 0), [])) ∧
    ((atTop addrMax [(addrMax, 99)]).pc + Instr.hlt.length ≤ addrMax + 1 ∧
      decode .fault ((atTop addrMax [(addrMax, 99)]).mem.readWords addrMax 1) = .ok (.hlt, [])) := by decide

theorem witness_operandWordBeyondTopFaults :
    ∀ k : OperandIndex,
      (atTop (addrMax - k) [(addrMax - k, 1)]).status.isLive = true ∧ addrMax - k.val ≤ addrMax ∧
      decodeWord .fault ((atTop (addrMax - k) [(addrMax - k, 1)]).mem.read (addrMax - k)) =
        .ok (.f3 .add .positional .positional .positional) ∧
      k.val < (Shape.f3 .add .positional .positional .positional).operandCount ∧
      addrMax - k + 1 + k.val = addrMax + 1 := by decide

theorem witness_stepEntryCheck : (after (start [0])).status = .faulted ∧ (after (start [99])).status = .halted ∧
    busy.status.isLive = true ∧ busy.pc ≤ addrMax ∧ (next? (step busy)).isSome = true := by decide

theorem witness_stepOutsideAddressSpaceStops :
    (atTop (addrMax + 1) []).status.isLive = true ∧ addrMax < (atTop (addrMax + 1) []).pc := by decide

/-- ADD, MUL, LT and EQ at the last cell of a finite memory and at the last `pc` that falls through. -/
theorem witness_addStoresSum :
    readable busy (.positional 0) = true ∧ readable busy (.relative 5) = true ∧ writable busy (.relative 10) = true ∧
    (9223372036854775806 : Word).toInt = (sourceValue busy (.positional 0)).toInt + (sourceValue busy (.relative 5)).toInt ∧
    admits busy.cfg.memCapacity (storeAddress busy (.relative 10) + 1) = true ∧ busy.pc + 4 ≤ addrMax := by decide

theorem witness_mulStoresProduct :
    readable busy (.positional 0) = true ∧ readable busy (.relative 5) = true ∧ writable busy (.positional 7) = true ∧
    (-9223372036854775807 : Word).toInt =
      (sourceValue busy (.positional 0)).toInt * (sourceValue busy (.relative 5)).toInt ∧
    admits busy.cfg.memCapacity (storeAddress busy (.positional 7) + 1) = true ∧ busy.pc + 4 ≤ addrMax := by decide

/-- LT's two outcomes: less, and equal. -/
theorem witness_lessThanStoresCondition :
    readable busy (.relative 5) = true ∧ readable busy (.immediate 0) = true ∧ writable busy (.positional 0) = true ∧
    admits busy.cfg.memCapacity (storeAddress busy (.positional 0) + 1) = true ∧ busy.pc + 4 ≤ addrMax ∧
    (sourceValue busy (.relative 5)).toInt < (sourceValue busy (.immediate 0)).toInt ∧
    ¬(sourceValue busy (.immediate 0)).toInt < (sourceValue busy (.immediate 0)).toInt := by decide

theorem witness_equalsStoresCondition :
    readable busy (.positional 2) = true ∧ readable busy (.immediate (-1)) = true ∧ writable busy (.positional 0) = true ∧
    admits busy.cfg.memCapacity (storeAddress busy (.positional 0) + 1) = true ∧ busy.pc + 4 ≤ addrMax ∧
    (sourceValue busy (.positional 2)).toInt = (sourceValue busy (.immediate (-1))).toInt ∧
    ¬(sourceValue busy (.positional 2)).toInt = (sourceValue busy (.immediate 1)).toInt := by decide

theorem witness_inputReceivesFront :
    writable { busy with pc := addrMax - 2 } (.relative 10) = true ∧ { busy with pc := addrMax - 2 }.iq = 7 :: [8] ∧
    admits { busy with pc := addrMax - 2 }.cfg.memCapacity (storeAddress { busy with pc := addrMax - 2 } (.relative 10) + 1) =
      true ∧ { busy with pc := addrMax - 2 }.pc + 2 ≤ addrMax := by decide

theorem witness_inputSuspendsOnEmpty :
    writable { busy with iq := [] } (.positional 9223372036854775807) = true ∧ { busy with iq := [] }.iq = [] := by decide

theorem witness_outputPushesValue :
    readable { busy with pc := addrMax - 2 } (.relative 3) = true ∧
    admits { busy with pc := addrMax - 2 }.cfg.oqCapacity ({ busy with pc := addrMax - 2 }.oq.length + 1) = true ∧
    { busy with pc := addrMax - 2 }.pc + 2 ≤ addrMax := by decide

theorem witness_outputFullQueueFaults :
    (readable { busy with oq := [4] } (.immediate 1) = true ∧ { busy with oq := [4] }.cfg.oqCapacity = .finite 1 ∧
      { busy with oq := [4] }.oq.length = 1) ∧
    (readable (start [104, 1]) (.immediate 1) = true ∧ (start [104, 1]).cfg.oqCapacity = .unbounded ∧
      (start [104, 1]).pc + 2 ≤ addrMax) ∧
    ((start [4, -2]).cfg.oqCapacity = .unbounded ∧ (next? (step (start [4, -2]))).isSome = true ∧
      (after (start [4, -2])).status = .faulted ∧ (after (start [4, -2])).fault.isSome = true) := by decide

/-- Taken to the largest and to the smallest target, taken to a negative one, and not taken. -/
theorem witness_jumpIfTrue :
    readable busy (.positional 2) = true ∧ readable busy (.positional 0) = true ∧
    (sourceValue busy (.positional 2) ≠ 0 ∧ 0 ≤ (sourceValue busy (.positional 0)).toInt) ∧
    (sourceValue busy (.positional 2) ≠ 0 ∧ 0 ≤ (sourceValue busy (.immediate 0)).toInt) ∧
    (sourceValue busy (.positional 2) ≠ 0 ∧ (sourceValue busy (.immediate (-1))).toInt < 0) ∧
    (sourceValue busy (.immediate 0) = 0 ∧ { busy with pc := addrMax - 3 }.pc + 3 ≤ addrMax) := by decide

theorem witness_jumpIfFalse :
    readable busy (.positional 1) = true ∧ readable busy (.positional 0) = true ∧
    (sourceValue busy (.positional 1) = 0 ∧ 0 ≤ (sourceValue busy (.positional 0)).toInt) ∧
    (sourceValue busy (.positional 1) = 0 ∧ 0 ≤ (sourceValue busy (.immediate 0)).toInt) ∧
    (sourceValue busy (.positional 1) = 0 ∧ (sourceValue busy (.immediate (-1))).toInt < 0) ∧
    (sourceValue busy (.immediate 1) ≠ 0 ∧ { busy with pc := addrMax - 3 }.pc + 3 ≤ addrMax) := by decide

theorem witness_adjustBaseAdds :
    readable busy (.immediate (-9223372036854775805)) = true ∧
    (-9223372036854775808 : Word).toInt = busy.rb.toInt + (sourceValue busy (.immediate (-9223372036854775805))).toInt ∧
    busy.pc + 2 ≤ addrMax := by decide

theorem witness_arithmeticOverflowFaults :
    busy.cfg.overflow = .fault ∧ readable busy (.positional 0) = true ∧
    (readable busy (.immediate 1) = true ∧ writable busy (.positional 9) = true ∧
      ¬IsWord ((sourceValue busy (.positional 0)).toInt + (sourceValue busy (.immediate 1)).toInt)) ∧
    (readable busy (.immediate 2) = true ∧
      ¬IsWord ((sourceValue busy (.positional 0)).toInt * (sourceValue busy (.immediate 2)).toInt)) ∧
    (readable busy (.immediate (-9223372036854775808)) = true ∧
      ¬IsWord (busy.rb.toInt + (sourceValue busy (.immediate (-9223372036854775808))).toInt)) := by decide

/-- `WORD_MAX + 1 = WORD_MIN`, `WORD_MAX * 2 = -2` and `-3 + WORD_MIN = 2^63 - 3` under `wrap`. -/
theorem witness_arithmeticWrapsByFormula :
    wrapping.cfg.overflow = .wrap ∧ readable wrapping (.positional 0) = true ∧
    (readable wrapping (.immediate 1) = true ∧ writable wrapping (.positional 7) = true ∧
      admits wrapping.cfg.memCapacity (storeAddress wrapping (.positional 7) + 1) = true ∧ wrapping.pc + 4 ≤ addrMax ∧
      (-9223372036854775808 : Word).toInt =
        ((sourceValue wrapping (.positional 0)).toInt + (sourceValue wrapping (.immediate 1)).toInt - wordMin) % 2 ^ 64 +
          wordMin) ∧
    ((-2 : Word).toInt =
      ((sourceValue wrapping (.positional 0)).toInt * (sourceValue wrapping (.immediate 2)).toInt - wordMin) % 2 ^ 64 +
        wordMin) ∧
    (wrapping.pc + 2 ≤ addrMax ∧ readable wrapping (.immediate (-9223372036854775808)) = true ∧
      (9223372036854775805 : Word).toInt =
        (wrapping.rb.toInt + (sourceValue wrapping (.immediate (-9223372036854775808))).toInt - wordMin) % 2 ^ 64 +
          wordMin) := by decide

theorem witness_wrapIsTwosComplement :
    wrapping.cfg.overflow = .wrap ∧ readable wrapping (.positional 0) = true ∧ readable wrapping (.relative 5) = true ∧
    writable wrapping (.positional 7) = true ∧
    admits wrapping.cfg.memCapacity (storeAddress wrapping (.positional 7) + 1) = true ∧ wrapping.pc + 4 ≤ addrMax ∧
    wrapping.pc + 2 ≤ addrMax := by decide

/-- The lowest of several bad operands, a target that is not taken, and a destination of IN with an empty queue. -/
theorem witness_lowestOperandFaultDecides :
    (Instr.add (.immediate 1) (.positional (-2)) (.relative (-9))).wf = true ∧
    firstOperandFault busy (.add (.immediate 1) (.positional (-2)) (.relative (-9))) =
      some ⟨.negativeAddress, some 1, some (-2)⟩ ∧
    firstOperandFault busy (.jt (.immediate 0) (.relative 2)) = some ⟨.negativeAddress, some 1, some (-1)⟩ ∧
    firstOperandFault { busy with rb := 1, iq := [] } (.inp (.relative 9223372036854775807)) =
      some ⟨.addressOverflow, some 0, some 9223372036854775808⟩ := by decide

theorem witness_illFormedInstructionFaults :
    (Instr.inp (.immediate 5)).wf = false ∧ (Instr.inp (.immediate 5)).destination = some (0, .immediate 5) ∧
    (Instr.lt (.positional (-1)) (.immediate 5) (.immediate 6)).wf = false ∧
    (Instr.lt (.positional (-1)) (.immediate 5) (.immediate 6)).destination = some (2, .immediate 6) := by decide

/-- The first cell above a finite memory, written, and read in a state of the invariant. -/
theorem witness_memoryCapacityBounds :
    busy.cfg.memCapacity = .finite 8 ∧ writable busy (.positional 8) = true ∧ 8 ≤ storeAddress busy (.positional 8) ∧
    readable busy (.positional 2) = true ∧ readable busy (.immediate 1) = true ∧
    IsWord ((sourceValue busy (.positional 2)).toInt + (sourceValue busy (.immediate 1)).toInt) ∧
    IsWord ((sourceValue busy (.positional 2)).toInt * (sourceValue busy (.immediate 1)).toInt) ∧ busy.iq ≠ [] ∧
    (start [1, 0, 0, -1]).cfg.memCapacity = .unbounded ∧ (after (start [1, 0, 0, -1])).status = .faulted ∧
    (next? (step (start [1, 0, 0, -1]))).isSome = true ∧ (after (start [1, 0, 0, -1])).fault.isSome = true := by decide

theorem witness_nextPcBeyondTopFaults :
    (addrMax < { busy with pc := addrMax - 3 }.pc + 4 ∧ readable busy (.immediate 1) = true ∧
      readable busy (.positional 2) = true ∧ writable busy (.positional 7) = true ∧
      admits busy.cfg.memCapacity (storeAddress busy (.positional 7) + 1) = true ∧
      IsWord ((sourceValue busy (.immediate 1)).toInt + (sourceValue busy (.positional 2)).toInt) ∧
      IsWord ((sourceValue busy (.immediate 1)).toInt * (sourceValue busy (.positional 2)).toInt)) ∧
    (addrMax < { busy with pc := addrMax - 2 }.pc + 3 ∧ sourceValue busy (.immediate 0) = 0 ∧
      sourceValue busy (.immediate 1) ≠ 0) ∧
    (addrMax < { busy with pc := addrMax - 1 }.pc + 2 ∧ busy.iq ≠ [] ∧
      admits busy.cfg.oqCapacity (busy.oq.length + 1) = true ∧
      IsWord (busy.rb.toInt + (sourceValue busy (.immediate 1)).toInt)) := by decide

/-- Under `wrap`, the same two faults with exact results outside the word range: `WORD_MAX + 1`, `WORD_MAX * 2` and
`-3 + WORD_MIN`. -/
theorem witness_wrapped_results_fault :
    wrapping.cfg.overflow = .wrap ∧ readable wrapping (.positional 0) = true ∧
    ¬IsWord ((sourceValue wrapping (.positional 0)).toInt + (sourceValue wrapping (.immediate 1)).toInt) ∧
    ¬IsWord ((sourceValue wrapping (.positional 0)).toInt * (sourceValue wrapping (.immediate 2)).toInt) ∧
    ¬IsWord (wrapping.rb.toInt + (sourceValue wrapping (.immediate (-9223372036854775808))).toInt) ∧
    wrapping.cfg.memCapacity = .finite 8 ∧ writable wrapping (.positional 8) = true ∧
    8 ≤ storeAddress wrapping (.positional 8) ∧ writable wrapping (.positional 7) = true ∧
    admits wrapping.cfg.memCapacity (storeAddress wrapping (.positional 7) + 1) = true ∧
    addrMax < { wrapping with pc := addrMax - 3 }.pc + 4 ∧ addrMax < { wrapping with pc := addrMax - 1 }.pc + 2 := by
  decide

/-- Each frame's instructions, completing and faulting. -/
theorem witness_storingFrame :
    (∃ t, exec (.add (.immediate 1) (.positional 2) (.positional 7)) busy = .next t ∧ t.status = .running) ∧
    (∃ t, exec (.eq (.immediate 1) (.positional 2) (.positional 8)) busy = .next t ∧ t.status = .faulted) :=
  ⟨⟨_, rfl, by decide⟩, ⟨_, rfl, by decide⟩⟩

theorem witness_inputFrame :
    (∃ t, exec (.inp (.positional 7)) busy = .next t ∧ t.status = .running) ∧
    (∃ t, exec (.inp (.positional 7)) { busy with iq := [] } = .next t ∧ t.status = .waitingForInput) ∧
    (∃ t, exec (.inp (.positional 8)) busy = .next t ∧ t.status = .faulted) :=
  ⟨⟨_, rfl, by decide⟩, ⟨_, rfl, by decide⟩, ⟨_, rfl, by decide⟩⟩

theorem witness_nonStoringFrame :
    (∃ t, exec (.out (.positional 7)) busy = .next t ∧ t.status = .running) ∧
    (∃ t, exec (.jt (.immediate 1) (.immediate (-1))) busy = .next t ∧ t.status = .faulted) ∧
    (∃ t, exec (.arb (.positional 7)) busy = .next t ∧ t.status = .running) ∧
    (∃ t, exec .hlt busy = .next t ∧ t.status = .halted) :=
  ⟨⟨_, rfl, by decide⟩, ⟨_, rfl, by decide⟩, ⟨_, rfl, by decide⟩, ⟨_, rfl, by decide⟩⟩

/-- The invariant holds of `busy`, which is not the reset state. -/
theorem busy_inv : busy.Inv where
  pc_address   := by decide
  mem_wf       := by decide
  mem_capacity := by decide
  iq_capacity  := by decide
  oq_capacity  := by decide
  fault_iff    := by decide
  fault_pc     := fun r h => by cases h

theorem witness_stepKeepsInvariant : busy.Inv ∧ ∃ t, step busy = .next t :=
  ⟨busy_inv, after busy, step_eq_after (by decide)⟩

/-- Construction with tight parameters, and an image that just fits them. -/
theorem witness_resetMeetsInvariant :
    (construct tight [1, 0, 0, 0, 99, wordMin, 0, wordMax]).isSome = true ∧
    (∀ v ∈ ([1, 0, 0, 0, 99, wordMin, 0, wordMax] : List Int), IsWord v) ∧
    ([1, 0, 0, 0, 99, wordMin, 0, wordMax] : List Int).length ≤ addrMax + 1 ∧
    admits tight.memCapacity ([1, 0, 0, 0, 99, wordMin, 0, wordMax] : List Int).length = true := by decide

theorem witness_commandKeepsInvariant :
    busy.Inv ∧ (∃ r t, command 0 (.memPoke 7 0) busy = .responded r t) ∧ ∃ t, command 0 .run busy = .fuelExhausted t :=
  ⟨busy_inv, ⟨_, _, rfl⟩, ⟨_, rfl⟩⟩

theorem witness_commandResponds : busy.Inv := busy_inv

theorem witness_faultsArePrecise :
    (step (start [0]) = .next (after (start [0])) ∧ (after (start [0])).status = .faulted) ∧
    (step { start [99] with status := .halted } = .next (after { start [99] with status := .halted }) ∧
      (after { start [99] with status := .halted }).status = .faulted) :=
  ⟨⟨step_eq_after (by decide), by decide⟩, ⟨step_eq_after (by decide), by decide⟩⟩

/-- HLT, a suspending IN and an ordinary instruction. -/
theorem witness_statusAfterStep :
    ∀ image ∈ ([[99], [3, 5], [104, 1]] : List (List Int)),
      (next? (step (start image))).isSome = true ∧ (after (start image)).status ≠ .faulted := by decide

/-- A jump taken and not taken, and one instruction of each length. -/
theorem witness_pcAfterStep :
    ∀ image ∈ ([[1105, 1, 7], [1105, 0, 7], [1106, 0, 9], [1106, 1, 9], [1, 0, 0, 0], [104, 1], [109, 1], [3, 5], [99]] :
        List (List Int)),
      (next? (step (start image))).isSome = true ∧ (after (start image)).status ≠ .faulted := by decide

/-- Each element is written by the one instruction named, and memory at the resolved destination alone. -/
theorem witness_onlyTheseInstructionsWrite :
    (step (start [109, 1]) = .next (after (start [109, 1])) ∧ (after (start [109, 1])).rb ≠ 0) ∧
    (step { start [3, 5] with iq := [7] } = .next (after { start [3, 5] with iq := [7] }) ∧
      (after { start [3, 5] with iq := [7] }).iq ≠ [7] ∧
      (after { start [3, 5] with iq := [7] }).mem ≠ (start [3, 5]).mem ∧
      (fetch { start [3, 5] with iq := [7] }).toOption = some (.inp (.positional 5)) ∧
      (resolveDst (start [3, 5]) 0 (.positional 5)).toOption = some 5) ∧
    (step (start [104, 1]) = .next (after (start [104, 1])) ∧ (after (start [104, 1])).oq ≠ []) :=
  ⟨⟨step_eq_after (by decide), by decide⟩, ⟨step_eq_after (by decide), by decide⟩,
    ⟨step_eq_after (by decide), by decide⟩⟩

theorem witness_suspensionIsIdempotent :
    step (start [3, 5]) = .next (after (start [3, 5])) ∧ (after (start [3, 5])).status = .waitingForInput :=
  ⟨step_eq_after (by decide), by decide⟩

theorem witness_terminatedIsFinal :
    (after (start [99])).Terminated ∧ (∀ c ∈ [Command.step, Command.run], c = .step ∨ c = .run) ∧
    (commands 0 [.step, .run] (after (start [99]))).isSome = true := by decide

theorem witness_liveStatusIsIrrelevant : Status.isLive .ready = true ∧ Status.isLive .waitingForInput = true := by decide

theorem witness_laterInputIsIrrelevant :
    step { start [3, 5] with iq := [7] } = .next (after { start [3, 5] with iq := [7] }) ∧
    (after { start [3, 5] with iq := [7] }).status ≠ .waitingForInput :=
  ⟨step_eq_after (by decide), by decide⟩

theorem witness_outputHistoryIsIrrelevant :
    (start [104, 1]).cfg.oqCapacity = .unbounded ∧ step (start [104, 1]) = .next (after (start [104, 1])) :=
  ⟨by decide, step_eq_after (by decide)⟩

/-- A finite memory whose step writes its last cell. -/
theorem witness_finiteMemoryRefinesUnbounded :
    step (startWith tight [1101, 1, 1, 7]) = .next (after (startWith tight [1101, 1, 1, 7])) ∧
    (startWith tight [1101, 1, 1, 7]).cfg.memCapacity = .finite 8 ∧
    ∀ r, (after (startWith tight [1101, 1, 1, 7])).fault = some r → r.cause ≠ .memoryCapacity :=
  ⟨step_eq_after (by decide), by decide, fun r h => by
    rw [show (after (startWith tight [1101, 1, 1, 7])).fault = none from by decide] at h
    cases h⟩

/-- An image that just fits, and the three kinds that are refused. -/
theorem witness_resetLoadsImage :
    ((∀ v ∈ ([wordMin, 0, wordMax, 1, 2, 3, 4, 5] : List Int), IsWord v) ∧ 8 ≤ addrMax + 1 ∧
      admits busy.cfg.memCapacity 8 = true) ∧
    ¬((∀ v ∈ ([wordMax + 1] : List Int), IsWord v) ∧ 1 ≤ addrMax + 1 ∧ admits busy.cfg.memCapacity 1 = true) ∧
    ¬admits busy.cfg.memCapacity 9 = true := by decide

/-- A queue that is filled exactly, one that would be exceeded by one, and a value that is no word. -/
theorem witness_pushAppendsAllOrNothing :
    admits (startWith tight []).cfg.iqCapacity ((startWith tight []).iq.length + ([1, 2] : List Word).length) = true ∧
    admits busy.cfg.iqCapacity (busy.iq.length + ([1] : List Word).length) = false ∧
    (∃ v ∈ ([1, wordMin - 1] : List Int), ¬IsWord v) ∧
    admits (startWith tight []).cfg.iqCapacity ((startWith tight []).iq.length + 2) = true := by decide

theorem witness_pushAsciiPushesCodes :
    (∀ c ∈ ['A', '\n', '\x7f'], c.toNat ≤ 127) ∧
    admits (start []).cfg.iqCapacity ((start []).iq.length + 3) = true ∧ (∃ c ∈ ['A', '\x80'], 127 < c.toNat) ∧
    admits (startWith tight []).cfg.iqCapacity ((startWith tight []).iq.length + 2) = true := by
  refine ⟨?_, by decide, ⟨'\x80', by simp, by decide⟩, by decide⟩
  simp only [List.mem_cons, List.not_mem_nil, or_false]
  rintro c (rfl | rfl | rfl) <;> decide

theorem witness_popsTakeFromOutput :
    busy.oq = [] ∧ { busy with oq := [1, 2, 3] }.oq = 1 :: [2, 3] ∧ { busy with oq := [1, 2, 3] }.oq = [1, 2] ++ [3] ∧
    { busy with oq := [1, 2, 3] }.oq = [1, 2, 3] ++ [] ∧ { busy with oq := [1, 2, 3] }.oq.length < 4 ∧ (-1 : Int) < 0 := by
  decide

/-- The last cell of a finite memory, and each refusal at its boundary. -/
theorem witness_pokeThenPeek :
    busy.mem.wf ∧ 7 ≤ addrMax ∧ admits busy.cfg.memCapacity (7 + 1) = true ∧ ¬IsAddress (-1) ∧
    ¬IsAddress 9223372036854775808 ∧ IsAddress 9223372036854775807 ∧ ¬IsWord 9223372036854775808 ∧ IsAddress 8 ∧
    IsWord 9223372036854775807 ∧ admits busy.cfg.memCapacity (8 + 1) = false ∧
    admits (start []).cfg.memCapacity (9223372036854775808 + 1) = true := by decide

theorem witness_hostCommandsKeepRegisters :
    (∃ t, command 0 (.popN (-1)) busy = .responded (.refused .badValue) t) ∧
    (∃ t, command 0 (.push 1) (start []) = .responded .ok t) :=
  ⟨⟨_, rfl⟩, ⟨_, rfl⟩⟩

theorem witness_runRepeatsSteps :
    (after (start [0])).status = .faulted ∧ (after (start [99])).status = .halted ∧ (start [99]).status.isLive = true ∧
    (next? (step { start [99] with status := .running })).isSome = true ∧
    (next? (step { start [104, 1, 99] with status := .running })).isSome = true ∧ (start [99]).status ≠ .faulted ∧
    command 1 .run (start [99]) = .responded (.status .halted none) (after (start [99])) := by decide

theorem witness_runResponseIsFinal : ∃ r t, command 1 .run (start [99]) = .responded r t := ⟨_, _, rfl⟩

theorem witness_instancesShareNothing :
    ∃ o sys', systemCommand 1 1 .run [busy, start [99]] = some (o, sys') ∧ (0 : Nat) ≠ 1 :=
  ⟨_, _, rfl, by decide⟩

theorem witness_pseudoInstructions :
    readable busy (.positional 2) = true ∧ writable busy (.positional 7) = true ∧
    admits busy.cfg.memCapacity (storeAddress busy (.positional 7) + 1) = true ∧ busy.pc + 4 ≤ addrMax ∧
    readable busy (.positional 0) = true ∧ 0 ≤ (sourceValue busy (.positional 0)).toInt ∧
    (sourceValue busy (.positional 2)).toInt < 0 ∧ busy.pc + 3 ≤ addrMax := by decide

end Sys2Proof.Tests
end

section
/-! PROOFS. The state of the engine (10_state.md): the invariant through every step and every host command, which
instruction writes which element of the state, and what a step does not depend on. -/

namespace Sys2Proof.Machine

/-! ## A pc outside the address space -/

/-- Settles O13: a live step is an instruction attempt, whose first check is the address space. -/
theorem stepOutsideAddressSpaceStops : Obligations.StepOutsideAddressSpaceStops := by
  intro s hl hpc
  rw [step_of_live hl, liveStep, if_neg (Nat.not_le.mpr hpc)]

/-! ## The invariant under the updates of the state -/

/-- A capacity that admits a number of things admits every smaller number. -/
theorem admits_mono {c : Capacity} {m n : Nat} (hmn : m ≤ n) (h : admits c n = true) : admits c m = true := by
  cases c with
  | unbounded => rfl
  | finite k =>
    simp only [admits, decide_eq_true_eq] at h ⊢
    omega

/-- Every capacity admits an empty store or queue. -/
theorem admits_zero (c : Capacity) : admits c 0 = true := by
  cases c <;> simp [admits]

/-- A write at an admitted address keeps every listed cell within the capacity (20_memory.md R52). -/
theorem Memory.write_capacity {c : Capacity} {m : Memory} {a : Nat} (hm : ∀ x ∈ m, admits c (x.1 + 1) = true)
    (ha : admits c (a + 1) = true) (v : Word) : ∀ x ∈ m.write a v, admits c (x.1 + 1) = true := fun x hx => by
  rcases Memory.mem_write hx with hx | ⟨rfl, -⟩
  · exact hm x hx
  · exact ha

section Inv
variable {s t : State}

theorem State.Inv.setIq (hs : s.Inv) {q : List Word} (hq : admits s.cfg.iqCapacity q.length = true) :
    (s.setIq q).Inv := { hs with iq_capacity := hq }

theorem State.Inv.setOq (hs : s.Inv) {q : List Word} (hq : admits s.cfg.oqCapacity q.length = true) :
    (s.setOq q).Inv := { hs with oq_capacity := hq }

theorem State.Inv.setMem_write (hs : s.Inv) {a : Nat} (ha : a ≤ addrMax)
    (hc : admits s.cfg.memCapacity (a + 1) = true) (v : Word) : (s.setMem (s.mem.write a v)).Inv :=
  { hs with
    mem_wf := Memory.write_wf hs.mem_wf ha v
    mem_capacity := Memory.write_capacity hs.mem_capacity hc v }

/-- Outside Faulted there is no fault record (R36 (b)). -/
theorem State.Inv.fault_eq_none (hs : s.Inv) (hl : s.status.isLive = true) : s.fault = none :=
  hs.fault_iff.mpr fun hf => by simp [hf, Status.isLive] at hl

/-- A live engine set Running, as a RUN begins (40_execution_cycle.md R110), is in the invariant. -/
theorem State.Inv.setStatus_running (hs : s.Inv) (hl : s.status.isLive = true) : (s.setStatus .running).Inv :=
  { hs with fault_iff := by simp [hs.fault_eq_none hl] }

/-- A fault keeps the invariant, whatever it is: its record holds the engine's `pc` (60_exceptions.md R182). -/
theorem takeFault_inv (hs : s.Inv) (w : Option Word) (e : Trap) : (takeFault s w e).Inv :=
  { hs with
    fault_iff := by simp
    fault_pc := by simp }

/-- A reset with an image that fits the address space and the capacity meets the invariant (R200). -/
theorem resetWith_inv {ws : List Word} (hl : ws.length ≤ addrMax + 1)
    (hc : admits s.cfg.memCapacity ws.length = true) : (resetWith s ws).Inv where
  pc_address := Nat.zero_le _
  mem_wf := Memory.ofWords_wf (by omega)
  mem_capacity := fun c hm => by
    obtain ⟨-, hlt, -⟩ := Memory.ofWords_bounds hm
    exact admits_mono (by omega) hc
  iq_capacity := admits_zero _
  oq_capacity := admits_zero _
  fault_iff := by simp
  fault_pc := by simp

/-- An instruction's effect in a live status keeps the invariant. -/
theorem effect_inv {i : Instr} (hs : s.Inv) (hl : s.status.isLive = true) (h : effect s i = .ok t) : t.Inv := by
  obtain ⟨hcfg, hfault, hstatus, hpc, hmem, hiq, hoq⟩ := effect_common h
  have hnone : t.fault = none := hfault.trans (hs.fault_eq_none hl)
  obtain ⟨hwf, hcap⟩ : t.mem.wf ∧ ∀ c ∈ t.mem, admits s.cfg.memCapacity (c.1 + 1) = true := by
    rcases hmem with heq | ⟨k, d, v, -, hw, hc, heq⟩ <;> rw [heq]
    · exact ⟨hs.mem_wf, hs.mem_capacity⟩
    · exact ⟨Memory.write_wf hs.mem_wf (storeAddress_le hw) v, Memory.write_capacity hs.mem_capacity hc v⟩
  refine ⟨?_, hwf, hcfg ▸ hcap, ?_, ?_, ?_, ?_⟩
  · rcases hpc with heq | hle
    · exact heq ▸ hs.pc_address
    · exact hle
  · rw [hcfg]
    rcases hiq with heq | ⟨v, heq⟩
    · exact heq ▸ hs.iq_capacity
    · exact admits_mono (by simp [heq]) hs.iq_capacity
  · rw [hcfg]
    rcases hoq with heq | ⟨v, heq, hc⟩
    · exact heq ▸ hs.oq_capacity
    · simpa [heq] using hc
  · rcases hstatus with hst | ⟨hst, -⟩ | hst <;> simp [hnone, hst]
  · simp [hnone]

/-- A step keeps the invariant: it takes a fault, or it is the fetched instruction's effect. -/
theorem step_inv (hs : s.Inv) (h : step s = .next t) : t.Inv := by
  rcases step_cases h with ⟨w, e, rfl⟩ | ⟨i, -, hi, hl⟩
  · exact takeFault_inv hs w e
  · exact effect_inv hs hl hi

end Inv

/-- Settles O36: a step takes a fault, or it is an effect, and both keep the invariant. -/
theorem stepKeepsInvariant : Obligations.StepKeepsInvariant := fun _ _ hs h => step_inv hs h

/-! ## The invariant under the host's commands -/

/-- The state an outcome leaves the engine in, where it leaves it in one, is in the invariant. -/
def HostOutcome.KeepsInv : HostOutcome → Prop
  | .responded _ t   => t.Inv
  | .fuelExhausted t => t.Inv
  | .stopped _       => True
  | .declined _      => True

section Commands
variable {s : State}

theorem hostReset_inv (hs : s.Inv) (image : List Int) : (hostReset image s).2.Inv := by
  unfold hostReset
  split
  · exact hs
  · split
    · rename_i h
      exact resetWith_inv h.1 h.2
    · exact hs

theorem hostPushSeq_inv (hs : s.Inv) (vs : List Int) : (hostPushSeq vs s).2.Inv := by
  unfold hostPushSeq
  split
  · exact hs
  · split
    · rename_i h
      exact hs.setIq (by simpa using h)
    · exact hs

theorem hostPushAscii_inv (hs : s.Inv) (cs : List Char) : (hostPushAscii cs s).2.Inv := by
  unfold hostPushAscii
  split
  · exact hs
  · exact hostPushSeq_inv hs _

theorem hostPeekIn_inv (hs : s.Inv) : (hostPeekIn s).2.Inv := by
  unfold hostPeekIn
  split <;> exact hs

/-- What is left of the output queue is within its capacity. -/
theorem State.Inv.setOq_of_length_le (hs : s.Inv) {q : List Word} (hq : q.length ≤ s.oq.length) : (s.setOq q).Inv :=
  hs.setOq (admits_mono hq hs.oq_capacity)

theorem hostPopOut_inv (hs : s.Inv) : (hostPopOut s).2.Inv := by
  unfold hostPopOut
  split
  · exact hs
  · rename_i h
    exact hs.setOq_of_length_le (by simp [h])

theorem hostPopLast_inv (hs : s.Inv) : (hostPopLast s).2.Inv := by
  unfold hostPopLast
  split
  · exact hs
  · exact hs.setOq_of_length_le (Nat.zero_le _)

theorem hostPopN_inv (hs : s.Inv) (n : Int) : (hostPopN n s).2.Inv := by
  unfold hostPopN
  split
  · exact hs
  · split
    · exact hs.setOq_of_length_le (by simp)
    · exact hs

theorem hostMemPeek_inv (hs : s.Inv) (a : Int) : (hostMemPeek a s).2.Inv := by
  unfold hostMemPeek
  split <;> exact hs

theorem hostMemPoke_inv (hs : s.Inv) (a v : Int) : (hostMemPoke a v s).2.Inv := by
  unfold hostMemPoke
  split
  · rename_i ha
    split
    · split
      · rename_i hc
        exact hs.setMem_write (Int.toNat_le.mpr ha.2) hc _
      · exact hs
    · exact hs
  · exact hs

/-- STEP keeps the invariant: it is refused, or it is a step. -/
theorem hostStep_keepsInv (hs : s.Inv) : (hostStep s).KeepsInv := by
  unfold hostStep
  split
  · exact hs
  · split
    · rename_i h
      exact step_inv hs h
    · trivial
    · trivial

/-- The loop of RUN keeps the invariant, by induction on the fuel: it stops, or one step leads to the rest of it. -/
theorem runLoop_keepsInv (hs : s.Inv) (fuel : Nat) : (runLoop fuel s).KeepsInv := by
  induction fuel generalizing s with
  | zero => exact hs
  | succ k ih =>
    unfold runLoop
    split
    · rename_i t h
      have ht : t.Inv := step_inv hs h
      split
      · exact ht
      · exact ih ht
    · trivial
    · trivial

/-- RUN keeps the invariant: it is refused, takes USAGE_AFTER_HALT, or goes on from Running. -/
theorem hostRun_keepsInv (hs : s.Inv) (fuel : Nat) : (hostRun fuel s).KeepsInv := by
  unfold hostRun
  split
  · exact hs
  · exact takeFault_inv hs _ _
  · refine runLoop_keepsInv (hs.setStatus_running ?_) fuel
    cases hst : s.status <;> simp_all [Status.isLive]

/-- Every command keeps the invariant (10_state.md R36). -/
theorem command_keepsInv (hs : s.Inv) (fuel : Nat) (c : Command) : (command fuel c s).KeepsInv := by
  cases c with
  | reset image => exact hostReset_inv hs image
  | push v => exact hostPushSeq_inv hs [v]
  | pushSeq vs => exact hostPushSeq_inv hs vs
  | pushAscii cs => exact hostPushAscii_inv hs cs
  | peekIn => exact hostPeekIn_inv hs
  | popOut => exact hostPopOut_inv hs
  | popLast => exact hostPopLast_inv hs
  | popN n => exact hostPopN_inv hs n
  | memPeek a => exact hostMemPeek_inv hs a
  | memPoke a v => exact hostMemPoke_inv hs a v
  | step => exact hostStep_keepsInv hs
  | run => exact hostRun_keepsInv hs fuel
  | isHalted | getStatus | observe => exact hs

end Commands

/-- Settles O38: every command's outcome leaves the engine in the invariant, a RUN by induction on its fuel. -/
theorem commandKeepsInvariant : Obligations.CommandKeepsInvariant := by
  intro fuel c s t hs
  have hk := command_keepsInv hs fuel c
  exact ⟨fun r h => by rwa [h] at hk, fun h => by rwa [h] at hk⟩

/-! ## Which instruction writes which element -/

/-- What an effect changed, with the instruction that changes it: only ARB writes `rb`, only IN pops input, only OUT
pushes output, only an instruction with a destination writes memory (10_state.md R30), and only HLT and IN leave
Running. -/
theorem effect_frame {s t : State} {i : Instr} (h : effect s i = .ok t) :
    (t.rb = s.rb ∨ ∃ a, i = .arb a) ∧
      (t.iq = s.iq ∨ (∃ d, i = .inp d) ∧ ∃ v, s.iq = v :: t.iq) ∧
      (t.oq = s.oq ∨ (∃ a, i = .out a) ∧ ∃ v, t.oq = s.oq ++ [v]) ∧
      (t.status = .running ∨ (t.status = .halted ∧ i = .hlt ∧ t.pc = s.pc) ∨ ∃ d, i = .inp d) := by
  cases i with
  | add a b d | mul a b d | lt a b d | eq a b d =>
    obtain ⟨-, -, -, -, -, r, -, rfl⟩ := storeBinary_eq_ok.mp h
    exact ⟨.inl rfl, .inl rfl, .inl rfl, .inl rfl⟩
  | jt c g | jf c g =>
    obtain ⟨-, -, ⟨-, -, rfl⟩ | ⟨-, -, rfl⟩⟩ := jumpWhen_eq_ok.mp h <;>
      exact ⟨.inl rfl, .inl rfl, .inl rfl, .inl rfl⟩
  | inp d =>
    obtain ⟨-, ⟨-, rfl⟩ | ⟨v, vs, hq, -, -, rfl⟩⟩ := receive_eq_ok.mp h
    · exact ⟨.inl rfl, .inl rfl, .inl rfl, .inr (.inr ⟨d, rfl⟩)⟩
    · exact ⟨.inl rfl, .inr ⟨⟨d, rfl⟩, v, hq⟩, .inl rfl, .inl rfl⟩
  | out a =>
    obtain ⟨-, -, -, rfl⟩ := emit_eq_ok.mp h
    exact ⟨.inl rfl, .inl rfl, .inr ⟨⟨a, rfl⟩, _, rfl⟩, .inl rfl⟩
  | arb a =>
    obtain ⟨-, -, r, -, rfl⟩ := adjustBase_eq_ok.mp h
    exact ⟨.inr ⟨a, rfl⟩, .inl rfl, .inl rfl, .inl rfl⟩
  | hlt =>
    cases h
    exact ⟨.inl rfl, .inl rfl, .inl rfl, .inr (.inl ⟨rfl, rfl, rfl⟩)⟩

/-- An instruction without a destination leaves memory as it is. -/
theorem effect_mem_of_destination_none {s t : State} {i : Instr} (h : effect s i = .ok t)
    (hd : i.destination = none) : t.mem = s.mem := by
  obtain ⟨-, -, -, -, hmem, -, -⟩ := effect_common h
  rcases hmem with hmem | ⟨k, d, v, hk, -⟩
  · exact hmem
  · simp [hd] at hk

/-- Settles O35: these five have no destination, and `effect_frame` leaves each only its own element to change. -/
theorem nonStoringFrame : Obligations.NonStoringFrame := by
  intro s t a b i hi hx
  rcases exec_eq_next.mp hx with h | ⟨e, -, rfl⟩
  · obtain ⟨hcfg, hfault, -⟩ := effect_common h
    obtain ⟨hrb, hiq, hoq, hst⟩ := effect_frame h
    have hmem : t.mem = s.mem := effect_mem_of_destination_none h (by
      rcases hi with rfl | rfl | rfl | rfl | rfl <;> rfl)
    have hninp : ∀ d, i ≠ .inp d := by
      rcases hi with rfl | rfl | rfl | rfl | rfl <;> simp
    refine ⟨hcfg, ?_, fun x => by rw [hmem], fun hne => ?_, fun hne => ?_, ?_⟩
    · rcases hiq with hiq | ⟨⟨d, hd⟩, -⟩
      · exact hiq
      · exact absurd hd (hninp d)
    · rcases hrb with hrb | ⟨a', rfl⟩
      · exact hrb
      · simp_all
    · rcases hoq with hoq | ⟨⟨a', rfl⟩, -⟩
      · exact hoq
      · simp_all
    · rcases hst with hst | ⟨hst, hhlt, hpc⟩ | ⟨d, hd⟩
      · exact .inl ⟨hst, hfault⟩
      · exact .inr (.inl ⟨hst, hhlt, hfault, hpc⟩)
      · exact absurd hd (hninp d)
  · exact ⟨rfl, rfl, fun _ => rfl, fun _ => rfl, fun _ => rfl, .inr (.inr ⟨rfl, rfl, rfl, rfl⟩)⟩

/-- The opcodes of the instructions that have a destination (30_encoding.md R72, R78). -/
theorem opcode_code_of_destination {i : Instr} {k : OperandIndex} {d : Operand} (h : i.destination = some (k, d)) :
    (i.opcode.code : Int) ∈ ([1, 2, 3, 7, 8] : List Int) := by
  cases i with
  | out a | jt c g | jf c g | arb a | hlt => simp [Instr.destination] at h
  | add a b d | mul a b d | inp d | lt a b d | eq a b d => simp [Instr.opcode, Opcode.code]

/-- Settles O43: a fault changes none of these elements, and an effect only those of its instruction, whose opcode the
word at `pc` holds. -/
theorem onlyTheseInstructionsWrite : Obligations.OnlyTheseInstructionsWrite := by
  intro s t hstep
  rcases step_cases hstep with ⟨w, e, rfl⟩ | ⟨i, hfetch, h, -⟩
  · simp
  · obtain ⟨hcfg, -, -, -, hmem, -, -⟩ := effect_common h
    obtain ⟨hrb, hiq, hoq, -⟩ := effect_frame h
    rw [opcode_of_fetch hfetch]
    refine ⟨hcfg, fun hne => ?_, fun hne => ?_, fun hne => ?_, fun hne => ?_, fun x hx => ?_, fun hne => ?_⟩
    · obtain ⟨a, rfl⟩ := hrb.resolve_left hne
      rfl
    · obtain ⟨⟨d, rfl⟩, hv⟩ := hiq.resolve_left hne
      exact ⟨rfl, hv⟩
    · obtain ⟨⟨a, rfl⟩, hv⟩ := hoq.resolve_left hne
      exact ⟨rfl, hv⟩
    · obtain ⟨k, d, v, hd, -⟩ := hmem.resolve_left hne
      exact opcode_code_of_destination hd
    · rcases hmem with heq | ⟨k, d, v, hd, hw, -, heq⟩
      · rw [heq]
      · rw [heq, Memory.read_write_ne]
        exact hx i k d _ hfetch hd (resolveDst_eq_ok.mpr ⟨hw, rfl⟩)
    · obtain ⟨k, d, v, hd, hw, -, heq⟩ := hmem.resolve_left hne
      exact ⟨i, k, d, v, hfetch, hd, hw, heq⟩

/-! ## What already stands in the output queue -/

/-- The same engine with `q` before its output queue. -/
def State.prependOq (q : List Word) (s : State) : State := s.setOq (q ++ s.oq)

section PrependOq
variable (q : List Word) (s : State)

theorem operandWords_prependOq (i n : Nat) : operandWords (s.prependOq q) i n = operandWords s i n := by
  induction n generalizing i with
  | zero => rfl
  | succ n ih =>
    simp only [operandWords, ih]
    rfl

/-- Fetching does not look at the output queue. -/
theorem fetch_prependOq : fetch (s.prependOq q) = fetch s := by
  simp only [fetch, operandWords_prependOq]
  rfl

@[simp] theorem resolveSrc_prependOq (i : OperandIndex) (o : Operand) :
    resolveSrc (s.prependOq q) i o = resolveSrc s i o := rfl

@[simp] theorem resolveDst_prependOq (i : OperandIndex) (o : Operand) :
    resolveDst (s.prependOq q) i o = resolveDst s i o := rfl

@[simp] theorem storeWord_prependOq (i : OperandIndex) (a : Nat) (v : Word) :
    storeWord (s.prependOq q) i a v = storeWord s i a v := rfl

@[simp] theorem fallThrough_prependOq (n : Nat) : fallThrough (s.prependOq q) n = fallThrough s n := rfl

theorem storeBinary_prependOq (a b d : Operand) (f : Word → Word → Except Trap Word) :
    storeBinary (s.prependOq q) a b d f = State.prependOq q <$> storeBinary s a b d f := by
  simp only [storeBinary, map_bind, resolveSrc_prependOq, resolveDst_prependOq, storeWord_prependOq,
    fallThrough_prependOq]
  rfl

theorem jumpWhen_prependOq (c g : Operand) (taken : Word → Bool) :
    jumpWhen (s.prependOq q) c g taken = State.prependOq q <$> jumpWhen s c g taken := by
  simp only [jumpWhen, map_bind, resolveSrc_prependOq, fallThrough_prependOq, apply_ite (State.prependOq q <$> ·)]
  rfl

theorem receive_prependOq (d : Operand) : receive (s.prependOq q) d = State.prependOq q <$> receive s d := by
  have hiq : (s.prependOq q).iq = s.iq := rfl
  simp only [receive, map_bind, resolveDst_prependOq, storeWord_prependOq, fallThrough_prependOq, hiq]
  cases s.iq with
  | nil => rfl
  | cons v vs =>
    simp only [map_bind]
    rfl

theorem adjustBase_prependOq (a : Operand) :
    adjustBase (s.prependOq q) a = State.prependOq q <$> adjustBase s a := by
  simp only [adjustBase, map_bind, resolveSrc_prependOq, fallThrough_prependOq]
  rfl

variable {s} (hc : s.cfg.oqCapacity = .unbounded)
include hc

/-- An unbounded output queue takes every value, whatever already stands in it (42_io.md R131). -/
theorem pushOutput_of_unbounded (v : Word) : pushOutput s v = .ok (s.oq ++ [v]) := by
  simp [pushOutput, hc, admits]

theorem emit_prependOq (a : Operand) : emit (s.prependOq q) a = State.prependOq q <$> emit s a := by
  have hc' : (s.prependOq q).cfg.oqCapacity = .unbounded := hc
  simp only [emit, map_bind, resolveSrc_prependOq, fallThrough_prependOq, pushOutput_of_unbounded hc,
    pushOutput_of_unbounded hc', ok_bind]
  simp [State.prependOq, State.setOq, State.advance, ← List.append_assoc, Functor.map, Except.map]

/-- Every effect commutes with values put before an unbounded output queue; a fault is the same fault. -/
theorem effect_prependOq (i : Instr) : effect (s.prependOq q) i = State.prependOq q <$> effect s i := by
  cases i with
  | add a b d | mul a b d | lt a b d | eq a b d => exact storeBinary_prependOq q s a b d _
  | jt c g | jf c g => exact jumpWhen_prependOq q s c g _
  | inp d => exact receive_prependOq q s d
  | out a => exact emit_prependOq q hc a
  | arb a => exact adjustBase_prependOq q s a
  | hlt => rfl

/-- An instruction answers the same state, with the values before its output queue. -/
theorem exec_prependOq {i : Instr} {t : State} (h : exec i s = .next t) :
    exec i (s.prependOq q) = .next (t.prependOq q) := by
  rw [exec_eq_next, effect_prependOq q hc]
  rcases exec_eq_next.mp h with hok | ⟨e, herr, rfl⟩
  · exact .inl (by rw [hok]; rfl)
  · exact .inr ⟨e, by rw [herr]; rfl, rfl⟩

end PrependOq

/-- Settles O48: the fetch does not look at the output queue, and every effect and every fault commutes with values put
before it. -/
theorem outputHistoryIsIrrelevant : Obligations.OutputHistoryIsIrrelevant := by
  intro s t q hc h
  change step (s.prependOq q) = .next (t.prependOq q)
  rw [step_eq_next, fetch_prependOq]
  rcases step_eq_next.mp h with ⟨hh, rfl⟩ | ⟨hl, hp, ⟨e, he, rfl⟩ | ⟨i, hi, hx⟩⟩
  · exact .inl ⟨hh, rfl⟩
  · exact .inr ⟨hl, hp, .inl ⟨e, he, rfl⟩⟩
  · exact .inr ⟨hl, hp, .inr ⟨i, hi, exec_prependOq q hc hx⟩⟩

end Sys2Proof.Machine
end

section
/-! PROOFS. The memory (20_memory.md): the bounds that a finite capacity sets, the step of a finite memory as the step of
the unbounded one, and the step that does not look at later input. -/

namespace Sys2Proof.Machine

/-! ## A read at or above the capacity -/

/-- An address that no cell lists reads as 0 (20_memory.md R51). -/
theorem Memory.read_of_not_listed {m : Memory} {a : Nat} (h : ∀ c ∈ m, c.1 ≠ a) : m.read a = 0 := by
  induction m with
  | nil => rfl
  | cons c m ih =>
    obtain ⟨hc, hm⟩ := List.forall_mem_cons.mp h
    rw [Memory.read, if_neg hc.symm, ih hm]

/-- A finite memory in the invariant lists no cell at or above its capacity (R52). -/
theorem State.Inv.read_beyond_capacity {s : State} {c x : Nat} (hs : s.Inv) (hc : s.cfg.memCapacity = .finite c)
    (hx : c ≤ x) : s.mem.read x = 0 := Memory.read_of_not_listed fun cell hcell => by
  have hlt := hs.mem_capacity cell hcell
  simp only [hc, admits, decide_eq_true_eq] at hlt
  omega

/-! ## A write at or above the capacity -/

/-- An instruction whose effect fails takes that fault. -/
theorem exec_of_effect_error {s : State} {i : Instr} {c : Cause} {o : Option OperandIndex} {v : Option Int}
    (h : effect s i = .error ⟨c, o, v⟩) : exec i s = .next (faultedWith s c o v) := by
  rw [exec_eq_commit, h]
  rfl

section BeyondCapacity
variable {s : State} {a b d : Operand} (hw : writable s d = true)
  (hc : admits s.cfg.memCapacity (storeAddress s d + 1) = false)
include hw hc

/-- A three-operand instruction that has a result but no room for it fails with MEMORY_CAPACITY (R52). -/
theorem storeBinary_beyond_capacity (ha : readable s a = true) (hb : readable s b = true)
    {f : Word → Word → Except Trap Word} (hf : ∃ r, f (sourceValue s a) (sourceValue s b) = .ok r) :
    storeBinary s a b d f = .error ⟨.memoryCapacity, some 2, some (storeAddress s d)⟩ := by
  obtain ⟨r, hr⟩ := hf
  simp only [storeBinary, checkDestination_of_writable 2 hw, resolveSrc_of_readable _ ha, resolveSrc_of_readable _ hb,
    resolveDst_eq_ok.mpr ⟨hw, rfl⟩, hr, storeWord_eq_error.mpr ⟨hc, rfl⟩, ok_bind, error_bind]

/-- IN with a value to receive but no room for it fails with MEMORY_CAPACITY (R52). -/
theorem receive_beyond_capacity (hq : s.iq ≠ []) :
    receive s d = .error ⟨.memoryCapacity, some 0, some (storeAddress s d)⟩ := by
  obtain ⟨v, vs, hvs⟩ := List.exists_cons_of_ne_nil hq
  simp only [receive, checkDestination_of_writable 0 hw, resolveDst_eq_ok.mpr ⟨hw, rfl⟩, hvs,
    storeWord_eq_error.mpr ⟨hc, rfl⟩, ok_bind, error_bind]

end BeyondCapacity

/-! ## Which checks fail with MEMORY_CAPACITY -/

/-- The check fails with MEMORY_CAPACITY. -/
def CapacityFault {α : Type} (x : Except Trap α) : Prop := ∃ e, x = .error e ∧ e.cause = .memoryCapacity

section CapacityFault
variable {α β : Type} {s : State}

@[simp] theorem not_capacityFault_ok (a : α) : ¬CapacityFault (.ok a) := by simp [CapacityFault]

@[simp] theorem capacityFault_error {e : Trap} :
    CapacityFault (.error e : Except Trap α) ↔ e.cause = .memoryCapacity := by simp [CapacityFault]

/-- Of two checks neither of which fails with MEMORY_CAPACITY, one after the other does not. -/
theorem not_capacityFault_bind {x : Except Trap α} {f : α → Except Trap β} (hx : ¬CapacityFault x)
    (hf : ∀ a, ¬CapacityFault (f a)) : ¬CapacityFault (x >>= f) := by
  cases x with
  | ok a => exact hf a
  | error e => simpa using hx

theorem not_capacityFault_checkAddr (x : Int) (i : Option OperandIndex) : ¬CapacityFault (checkAddr x i) := by
  rintro ⟨e, he, hcause⟩
  rcases checkAddr_eq_error.mp he with ⟨-, rfl⟩ | ⟨-, rfl⟩ <;> cases hcause

theorem not_capacityFault_fallThrough (n : Nat) : ¬CapacityFault (fallThrough s n) := not_capacityFault_checkAddr _ _

theorem not_capacityFault_checkDestination (i : OperandIndex) (d : Operand) :
    ¬CapacityFault (checkDestination i d) := by
  unfold checkDestination
  split <;> simp [immediateDestination]

theorem not_capacityFault_resolveSrc (i : OperandIndex) (o : Operand) : ¬CapacityFault (resolveSrc s i o) := by
  cases o with
  | immediate p => exact not_capacityFault_ok p
  | positional p | relative p =>
    exact not_capacityFault_bind (not_capacityFault_checkAddr _ _) fun _ => not_capacityFault_ok _

theorem not_capacityFault_resolveDst (i : OperandIndex) (o : Operand) : ¬CapacityFault (resolveDst s i o) := by
  cases o with
  | immediate p => simp [resolveDst, immediateDestination]
  | positional p | relative p => exact not_capacityFault_checkAddr _ _

theorem not_capacityFault_wordResult (om : OverflowMode) (x : Int) : ¬CapacityFault (wordResult om x) := by
  rintro ⟨e, he, hcause⟩
  obtain ⟨-, -, rfl⟩ := wordResult_eq_error he
  cases hcause

theorem not_capacityFault_pushOutput (v : Word) : ¬CapacityFault (pushOutput s v) := by
  rintro ⟨e, he, hcause⟩
  obtain ⟨-, rfl⟩ := pushOutput_eq_error.mp he
  cases hcause

theorem not_capacityFault_operandWords (i n : Nat) : ¬CapacityFault (operandWords s i n) := by
  induction n generalizing i with
  | zero => exact not_capacityFault_ok []
  | succ n ih =>
    exact not_capacityFault_bind (not_capacityFault_checkAddr _ _) fun _ =>
      not_capacityFault_bind (ih (i + 1)) fun _ => not_capacityFault_ok _

/-- A fetch reads memory and never writes it. -/
theorem not_capacityFault_fetch : ¬CapacityFault (fetch s) := by
  unfold fetch
  split
  · rename_i e _
    cases e <;> simp [decodeTrap, immediateDestination]
  · exact not_capacityFault_bind (not_capacityFault_operandWords _ _) fun _ => not_capacityFault_ok _

theorem not_capacityFault_jumpWhen (c g : Operand) (taken : Word → Bool) :
    ¬CapacityFault (jumpWhen s c g taken) := by
  refine not_capacityFault_bind (not_capacityFault_resolveSrc _ _) fun x =>
    not_capacityFault_bind (not_capacityFault_resolveSrc _ _) fun y => ?_
  split
  · exact not_capacityFault_bind (not_capacityFault_checkAddr _ _) fun _ => not_capacityFault_ok _
  · exact not_capacityFault_bind (not_capacityFault_fallThrough _) fun _ => not_capacityFault_ok _

theorem not_capacityFault_emit (a : Operand) : ¬CapacityFault (emit s a) :=
  not_capacityFault_bind (not_capacityFault_resolveSrc _ _) fun _ =>
    not_capacityFault_bind (not_capacityFault_pushOutput _) fun _ =>
      not_capacityFault_bind (not_capacityFault_fallThrough _) fun _ => not_capacityFault_ok _

theorem not_capacityFault_adjustBase (a : Operand) : ¬CapacityFault (adjustBase s a) :=
  not_capacityFault_bind (not_capacityFault_resolveSrc _ _) fun _ =>
    not_capacityFault_bind (not_capacityFault_wordResult _ _) fun _ =>
      not_capacityFault_bind (not_capacityFault_fallThrough _) fun _ => not_capacityFault_ok _

variable (hc : s.cfg.memCapacity = .unbounded)
include hc

/-- An unbounded memory has room for every write. -/
theorem not_capacityFault_storeWord (i : OperandIndex) (a : Nat) (v : Word) : ¬CapacityFault (storeWord s i a v) := by
  simp [storeWord, hc, admits]

theorem not_capacityFault_storeBinary (a b d : Operand) {f : Word → Word → Except Trap Word}
    (hf : ∀ x y, ¬CapacityFault (f x y)) : ¬CapacityFault (storeBinary s a b d f) :=
  not_capacityFault_bind (not_capacityFault_checkDestination _ _) fun _ =>
    not_capacityFault_bind (not_capacityFault_resolveSrc _ _) fun x =>
      not_capacityFault_bind (not_capacityFault_resolveSrc _ _) fun y =>
        not_capacityFault_bind (not_capacityFault_resolveDst _ _) fun _ =>
          not_capacityFault_bind (hf x y) fun _ =>
            not_capacityFault_bind (not_capacityFault_storeWord hc _ _ _) fun _ =>
              not_capacityFault_bind (not_capacityFault_fallThrough _) fun _ => not_capacityFault_ok _

theorem not_capacityFault_receive (d : Operand) : ¬CapacityFault (receive s d) := by
  refine not_capacityFault_bind (not_capacityFault_checkDestination _ _) fun _ =>
    not_capacityFault_bind (not_capacityFault_resolveDst _ _) fun _ => ?_
  split
  · exact not_capacityFault_ok _
  · exact not_capacityFault_bind (not_capacityFault_storeWord hc _ _ _) fun _ =>
      not_capacityFault_bind (not_capacityFault_fallThrough _) fun _ => not_capacityFault_ok _

/-- No instruction fails with MEMORY_CAPACITY where the memory is unbounded (R52). -/
theorem not_capacityFault_effect (i : Instr) : ¬CapacityFault (effect s i) := by
  cases i with
  | add a b d | mul a b d =>
    exact not_capacityFault_storeBinary hc a b d fun _ _ => not_capacityFault_wordResult _ _
  | lt a b d | eq a b d => exact not_capacityFault_storeBinary hc a b d fun _ _ => not_capacityFault_ok _
  | inp d => exact not_capacityFault_receive hc d
  | out a => exact not_capacityFault_emit a
  | jt c g | jf c g => exact not_capacityFault_jumpWhen c g _
  | arb a => exact not_capacityFault_adjustBase a
  | hlt => exact not_capacityFault_ok _

/-- No step of an unbounded memory ends in MEMORY_CAPACITY: a step that ends Faulted took USAGE_AFTER_HALT, the fault of
its fetch, or that of its instruction. -/
theorem step_cause_of_unbounded {t : State} {r : FaultRecord} (h : step s = .next t) (ht : t.status = .faulted)
    (hr : t.fault = some r) : r.cause ≠ .memoryCapacity := by
  have raised : ∀ {α : Type} {x : Except Trap α} {e : Trap}, ¬CapacityFault x → x = .error e →
      (raiseFault s e).fault = some r → r.cause ≠ .memoryCapacity := fun hx he hrec hcause => by
    cases hrec
    exact hx ⟨_, he, hcause⟩
  rcases step_eq_next.mp h with ⟨-, rfl⟩ | ⟨-, -, ⟨e, he, rfl⟩ | ⟨i, -, hx⟩⟩
  · cases hr
    exact nofun
  · exact raised not_capacityFault_fetch he hr
  · rcases exec_eq_next.mp hx with hok | ⟨e, he, rfl⟩
    · obtain ⟨-, -, hst, -⟩ := effect_common hok
      simp [ht] at hst
    · exact raised (not_capacityFault_effect hc i) he hr

end CapacityFault

/-- Settles O31: the write is the last of an instruction's checks that can fail here, a cell at or above the capacity is
never listed, and an unbounded memory admits every address. -/
theorem memoryCapacityBounds : Obligations.MemoryCapacityBounds := by
  refine ⟨fun s a b d c hc hw hd => ?_, fun s c x hs => hs.read_beyond_capacity,
    fun s t r hc => step_cause_of_unbounded hc⟩
  have hfull : admits s.cfg.memCapacity (storeAddress s d + 1) = false := by
    simp only [hc, admits, decide_eq_false_iff_not]
    omega
  refine ⟨fun ha hb => ?_, fun hq => exec_of_effect_error (receive_beyond_capacity hw hfull hq)⟩
  have binary := fun f => storeBinary_beyond_capacity hw hfull ha hb (f := f)
  exact ⟨fun h => exec_of_effect_error (binary _ (wordResult_answers h)),
    fun h => exec_of_effect_error (binary _ (wordResult_answers h)),
    exec_of_effect_error (binary _ ⟨_, rfl⟩), exec_of_effect_error (binary _ ⟨_, rfl⟩)⟩

/-! ## The step of a changed engine -/

/-- Two engines that fetch from the same memory at the same `pc`, with the same decoder, fetch the same operand words. -/
theorem operandWords_congr {s t : State} (hpc : t.pc = s.pc) (hmem : t.mem = s.mem) (i n : Nat) :
    operandWords t i n = operandWords s i n := by
  induction n generalizing i with
  | zero => rfl
  | succ n ih => simp only [operandWords, ih, hpc, hmem]

theorem fetch_congr {s t : State} (hhd : t.cfg.highDigits = s.cfg.highDigits) (hpc : t.pc = s.pc)
    (hmem : t.mem = s.mem) : fetch t = fetch s := by
  simp only [fetch, hhd, hpc, hmem, operandWords_congr hpc hmem]

/-- `y` is what `x` is, with the states it commits changed by `φ`, unless `x` is one of the `exempt` results. -/
def CarriesOver (φ : State → State) (exempt : Except Trap State → Prop) (x y : Except Trap State) : Prop :=
  ¬exempt x → y = φ <$> x

section CarriesOver
variable {φ : State → State} {exempt : Except Trap State → Prop}

theorem CarriesOver.ok (t : State) : CarriesOver φ exempt (.ok t) (.ok (φ t)) := fun _ => rfl

/-- After a check that both make alike, it is enough that what follows carries over. -/
theorem CarriesOver.bind {α : Type} (x : Except Trap α) {f g : α → Except Trap State}
    (h : ∀ a, CarriesOver φ exempt (f a) (g a)) : CarriesOver φ exempt (x >>= f) (x >>= g) := by
  cases x with
  | ok a => exact h a
  | error e => exact fun _ => rfl

/-- A jump carries over when its operands resolve alike and it goes on from the same `pc`. -/
theorem jumpWhen_carriesOver {s : State} (hsrc : ∀ i o, resolveSrc (φ s) i o = resolveSrc s i o)
    (hpc : (φ s).pc = s.pc) (hadvance : ∀ pc, (φ s).advance pc = φ (s.advance pc)) (c g : Operand)
    (taken : Word → Bool) : CarriesOver φ exempt (jumpWhen s c g taken) (jumpWhen (φ s) c g taken) := by
  simp only [jumpWhen, hsrc, fallThrough, hpc, hadvance]
  refine .bind _ fun x => .bind _ fun y => ?_
  split
  · exact .bind _ fun _ => .ok _
  · exact .bind _ fun _ => .ok _

/-- A step carries over when the fetch is the same, faults are taken alike, and every effect carries over whose commit is
not exempt. -/
theorem step_carriesOver {s t : State} (hstatus : (φ s).status = s.status) (hpc : (φ s).pc = s.pc)
    (hfetch : fetch (φ s) = fetch s) (hfault : ∀ w e, takeFault (φ s) w e = φ (takeFault s w e))
    (hmem : (φ s).mem = s.mem) (heffect : ∀ i, CarriesOver φ exempt (effect s i) (effect (φ s) i))
    (h : step s = .next t) (hexempt : ∀ r, commit s r = .next t → ¬exempt r) : step (φ s) = .next (φ t) := by
  have hraise : ∀ e, raiseFault (φ s) e = φ (raiseFault s e) := fun e => by
    rw [raiseFault, hpc, hmem, hfault, raiseFault]
  rw [step_eq_next, hstatus, hpc, hfetch]
  rcases step_eq_next.mp h with ⟨hh, rfl⟩ | ⟨hl, hp, ⟨e, he, rfl⟩ | ⟨i, hi, hx⟩⟩
  · exact .inl ⟨hh, (hfault _ _).symm⟩
  · exact .inr ⟨hl, hp, .inl ⟨e, he, (hraise e).symm⟩⟩
  · rw [exec_eq_commit] at hx
    refine .inr ⟨hl, hp, .inr ⟨i, hi, ?_⟩⟩
    rw [exec_eq_commit, heffect i (hexempt _ hx)]
    rcases commit_eq_next.mp hx with hok | ⟨e, herr, rfl⟩
    · rw [hok]
      rfl
    · rw [herr, ← hraise]
      rfl

end CarriesOver

/-! ## More input waiting -/

/-- The same engine with `q` behind its input queue. -/
def State.appendIq (q : List Word) (s : State) : State := s.setIq (s.iq ++ q)

/-- The effect is to suspend (42_io.md R130). -/
def Suspends (r : Except Trap State) : Prop := ∃ t, r = .ok t ∧ t.status = .waitingForInput

section AppendIq
variable (q : List Word) (s : State)

theorem storeBinary_appendIq (a b d : Operand) (f : Word → Word → Except Trap Word) :
    CarriesOver (State.appendIq q) Suspends (storeBinary s a b d f) (storeBinary (s.appendIq q) a b d f) :=
  .bind _ fun _ => .bind _ fun _ => .bind _ fun _ => .bind _ fun _ => .bind _ fun _ => .bind _ fun _ =>
    .bind _ fun _ => .ok _

/-- An IN that finds a value pops the same value; one that finds none suspends. -/
theorem receive_appendIq (d : Operand) :
    CarriesOver (State.appendIq q) Suspends (receive s d) (receive (s.appendIq q) d) := by
  refine .bind _ fun _ => .bind _ fun ea => ?_
  have hiq : (s.appendIq q).iq = s.iq ++ q := rfl
  rw [hiq]
  cases s.iq with
  | nil => exact fun h => absurd ⟨_, rfl, rfl⟩ h
  | cons v vs => exact .bind _ fun _ => .bind _ fun _ => .ok _

theorem effect_appendIq (i : Instr) :
    CarriesOver (State.appendIq q) Suspends (effect s i) (effect (s.appendIq q) i) := by
  cases i with
  | add a b d | mul a b d | lt a b d | eq a b d => exact storeBinary_appendIq q s a b d _
  | jt c g | jf c g => exact jumpWhen_carriesOver (fun _ _ => rfl) rfl (fun _ => rfl) c g _
  | inp d => exact receive_appendIq q s d
  | out a | arb a => exact .bind _ fun _ => .bind _ fun _ => .bind _ fun _ => .ok _
  | hlt => exact .ok _

end AppendIq

/-- Settles O47: IN alone looks at the input queue, at its front, and without one it suspends or faults. -/
theorem laterInputIsIrrelevant : Obligations.LaterInputIsIrrelevant := by
  intro s t q h ht
  refine step_carriesOver (φ := State.appendIq q) rfl rfl (fetch_congr rfl rfl rfl) (fun _ _ => rfl) rfl
    (effect_appendIq q s) h ?_
  rintro r hr ⟨u, rfl, hu⟩
  cases hr
  exact ht hu

/-! ## An unbounded memory -/

/-- The same engine with an unbounded memory capacity (00_scope.md R9). -/
def State.unboundMem (s : State) : State := { s with cfg := { s.cfg with memCapacity := .unbounded } }

section UnboundMem
variable (s : State)

/-- A write fails with MEMORY_CAPACITY, or an unbounded memory makes the same write. -/
theorem storeWord_unboundMem {i : OperandIndex} {a : Nat} {v : Word} {f g : Memory → Except Trap State}
    (h : ∀ m, CarriesOver State.unboundMem CapacityFault (f m) (g m)) :
    CarriesOver State.unboundMem CapacityFault (storeWord s i a v >>= f) (storeWord s.unboundMem i a v >>= g) := by
  cases hadm : admits s.cfg.memCapacity (a + 1) with
  | true =>
    rw [storeWord_eq_ok.mpr ⟨hadm, rfl⟩, storeWord_eq_ok.mpr ⟨rfl, rfl⟩]
    exact h _
  | false =>
    rw [storeWord_eq_error.mpr ⟨hadm, rfl⟩]
    exact fun hne => absurd (capacityFault_error.mpr rfl) hne

theorem storeBinary_unboundMem (a b d : Operand) (f : Word → Word → Except Trap Word) :
    CarriesOver State.unboundMem CapacityFault (storeBinary s a b d f) (storeBinary s.unboundMem a b d f) :=
  .bind _ fun _ => .bind _ fun _ => .bind _ fun _ => .bind _ fun _ => .bind _ fun _ =>
    storeWord_unboundMem s fun _ => .bind _ fun _ => .ok _

theorem receive_unboundMem (d : Operand) :
    CarriesOver State.unboundMem CapacityFault (receive s d) (receive s.unboundMem d) := by
  refine .bind _ fun _ => .bind _ fun ea => ?_
  have hiq : s.unboundMem.iq = s.iq := rfl
  rw [hiq]
  cases s.iq with
  | nil => exact .ok _
  | cons v vs => exact storeWord_unboundMem s fun _ => .bind _ fun _ => .ok _

theorem effect_unboundMem (i : Instr) :
    CarriesOver State.unboundMem CapacityFault (effect s i) (effect s.unboundMem i) := by
  cases i with
  | add a b d | mul a b d | lt a b d | eq a b d => exact storeBinary_unboundMem s a b d _
  | jt c g | jf c g => exact jumpWhen_carriesOver (fun _ _ => rfl) rfl (fun _ => rfl) c g _
  | inp d => exact receive_unboundMem s d
  | out a | arb a => exact .bind _ fun _ => .bind _ fun _ => .bind _ fun _ => .ok _
  | hlt => exact .ok _

end UnboundMem

/-- Settles O49: the write alone looks at the memory capacity, and where it fails the step ends in MEMORY_CAPACITY. -/
theorem finiteMemoryRefinesUnbounded : Obligations.FiniteMemoryRefinesUnbounded := by
  intro s t h ht
  refine step_carriesOver (φ := State.unboundMem) rfl rfl (fetch_congr rfl rfl rfl) (fun _ _ => rfl) rfl
    (effect_unboundMem s) h ?_
  rintro r hr ⟨e, rfl, he⟩
  cases hr
  exact ht _ rfl he

end Sys2Proof.Machine
end

section
/-! PROOFS. The encoding (30_encoding.md): decode and encode undo each other, which words decode, the faults of the
decoder in a step, and the pseudo-instructions. -/

namespace Sys2Proof

open Sys2Proof.Machine

/-! ## What `decode` answers -/

/-- Everything `decode` accepts: a word that decodes, with at least its operand words after it (R70). -/
theorem decode_eq_ok {hm : HighDigitsMode} {ws rest : List Word} {i : Instr} :
    decode hm ws = .ok (i, rest) ↔
      ∃ w ps sh, ws = w :: ps ∧ decodeWord hm w = .ok sh ∧ sh.operandCount ≤ ps.length ∧
        i = sh.instr ps ∧ rest = ps.drop sh.operandCount := by
  cases ws with
  | nil => simp [decode]
  | cons w ps =>
    simp only [decode, List.cons.injEq]
    cases hsh : decodeWord hm w with
    | error e => simp [← and_assoc, hsh]
    | ok sh => by_cases hl : sh.operandCount ≤ ps.length <;> simp [hsh, hl, eq_comm]

/-! ## The shape of an instruction -/

/-- The shape of an instruction: its operation and the modes of its operands (R79). -/
def Instr.shape : Instr → Shape
  | .add a b d => .f3 .add a.mode b.mode d.mode
  | .mul a b d => .f3 .mul a.mode b.mode d.mode
  | .inp d     => .f1 .inp d.mode
  | .out a     => .f1 .out a.mode
  | .jt c t    => .f2 .jt c.mode t.mode
  | .jf c t    => .f2 .jf c.mode t.mode
  | .lt a b d  => .f3 .lt a.mode b.mode d.mode
  | .eq a b d  => .f3 .eq a.mode b.mode d.mode
  | .arb a     => .f1 .arb a.mode
  | .hlt       => .f0

/-- An instruction is what its shape makes of its operand words, whatever words follow them. -/
theorem Instr.instr_shape (i : Instr) (rest : List Word) : i.shape.instr (i.operands.map Operand.word ++ rest) = i := by
  cases i <;>
    simp [Instr.shape, Instr.operands, Shape.instr, OpF1.instr, OpF2.instr, OpF3.instr, Operand.operand_mode_word]

theorem Instr.operandCount_shape (i : Instr) : i.shape.operandCount = (i.operands.map Operand.word).length := by
  cases i <;> rfl

theorem Instr.number_shape (i : Instr) : i.shape.number = i.wordNumber := by
  rw [← Shape.wordNumber_instr, Instr.instr_shape i []]

/-- A well-formed instruction has a legal shape (R78). -/
theorem Instr.shape_legal {i : Instr} (h : i.wf = true) : i.shape.Legal := by
  have destination : ∀ {d : Operand}, d.isDestination = true → d.mode ≠ .immediate := fun {d} hd => by
    cases d <;> simp_all [Operand.isDestination, Operand.mode]
  cases i with
  | add a b d | mul a b d | inp d | lt a b d | eq a b d => exact destination h
  | out a | jt c t | jf c t | arb a | hlt => trivial

/-- The number of a shape has no digit above its last mode digit (R71). -/
theorem Shape.number_lt (sh : Shape) : sh.number < 10 ^ (2 + sh.operandCount) := by
  cases sh with
  | f0 => decide
  | f1 o m => cases o <;> cases m <;> decide
  | f2 o m n => cases o <;> cases m <;> cases n <;> decide
  | f3 o m n p => cases o <;> cases m <;> cases n <;> cases p <;> decide

/-- A number that a word can hold is that word's value. -/
theorem toInt_ofNat_of_le {n : Nat} (h : n ≤ addrMax) : (BitVec.ofNat 64 n).toInt = n := by
  simp only [addrMax] at h
  rw [BitVec.toInt_ofNat']
  exact Int.bmod_eq_of_le (by omega) (by omega)

/-- The value of a word that is not negative is the number its bits are. -/
theorem toInt_eq_toNat_of_nonneg {w : Word} (h : 0 ≤ w.toInt) : w.toInt = w.toNat :=
  BitVec.toInt_eq_toNat_of_lt (BitVec.toInt_pos_iff.mp h)

/-- A legal shape's number is a word that decodes to the shape, in either mode (R79, R88). -/
theorem Shape.decodeWord_number {sh : Shape} (h : sh.Legal) (hm : HighDigitsMode) :
    decodeWord hm (BitVec.ofNat 64 sh.number) = .ok sh := by
  have hlt := sh.number_lt
  have hpow : 10 ^ (2 + sh.operandCount) ≤ addrMax := by
    cases sh <;> simp [Shape.operandCount, Shape.opcode, Opcode.operandCount, addrMax]
  rw [decodeWord_eq_ok, toInt_ofNat_of_le (by omega), Int.toNat_natCast]
  exact ⟨Int.natCast_nonneg _, h, Nat.mod_eq_of_lt hlt, fun _ => rfl⟩

/-- Settles O1: the instruction word is the number of the instruction's shape, and the shape makes the instruction again
of its operand words. -/
theorem decodeOfEncode : Obligations.DecodeOfEncode := by
  intro hm i rest hwf
  have hw := Shape.decodeWord_number (Instr.shape_legal hwf) hm
  rw [Instr.number_shape] at hw
  exact decode_eq_ok.mpr ⟨_, _, i.shape, rfl, hw, by simp [Instr.operandCount_shape], (i.instr_shape rest).symm,
    by simp [Instr.operandCount_shape]⟩

/-! ## Words that decode -/

@[simp] theorem OpF1.operands_instr (o : OpF1) (x : Operand) : (o.instr x).operands = [x] := by cases o <;> rfl

@[simp] theorem OpF2.operands_instr (o : OpF2) (x y : Operand) : (o.instr x y).operands = [x, y] := by
  cases o <;> rfl

@[simp] theorem OpF3.operands_instr (o : OpF3) (x y z : Operand) : (o.instr x y z).operands = [x, y, z] := by
  cases o <;> rfl

/-- The operand words of a decoded instruction are the words after its instruction word (R70, R80). -/
theorem Shape.words_operands_instr {sh : Shape} {ps : List Word} (h : sh.operandCount ≤ ps.length) :
    (sh.instr ps).operands.map Operand.word = ps.take sh.operandCount := by
  calc (sh.instr ps).operands.map Operand.word
    _ = (List.range sh.operandCount).map (ps.getD · 0) := by
      cases sh with
      | f0 => rfl
      | f1 o m | f2 o m n | f3 o m n k =>
        simp [Shape.instr, Shape.operandCount, Shape.opcode, Opcode.operandCount, List.range_succ]
    _ = ps.take sh.operandCount := by
      refine List.ext_getElem (by simpa using h) fun k hk _ => ?_
      have hlt : k < ps.length := by
        simp only [List.length_map, List.length_range] at hk
        omega
      simp [hlt]

/-- Settles O2: a word that decodes in mode `fault` is the number of its shape, and no operand word is changed. -/
theorem encodeOfDecode : Obligations.EncodeOfDecode := by
  intro ws rest i h
  obtain ⟨w, ps, sh, rfl, hw, hl, rfl, rfl⟩ := decode_eq_ok.mp h
  obtain ⟨h0, -, -, hnum⟩ := decodeWord_eq_ok.mp hw
  have hword : BitVec.ofNat 64 sh.number = w := by
    rw [← hnum rfl, toInt_eq_toNat_of_nonneg h0]
    simp
  simp [encode, Shape.wordNumber_instr, Shape.words_operands_instr hl, hword]

/-- Settles O3: the decoder answers legal shapes alone, and these make well-formed instructions. -/
theorem decodedInstructionIsWellFormed : Obligations.DecodedInstructionIsWellFormed := by
  intro hm ws rest i h
  obtain ⟨w, ps, sh, rfl, hw, -, rfl, -⟩ := decode_eq_ok.mp h
  obtain ⟨-, hlegal, -, -⟩ := decodeWord_eq_ok.mp hw
  exact Shape.instr_wf hlegal ps

/-! ## The table of legal words (R83) -/

/-- The three modes (R75). -/
def allModes : List Mode := [.positional, .immediate, .relative]

/-- The modes of a destination operand (R78). -/
def destinationModes : List Mode := [.positional, .relative]

theorem mem_allModes (m : Mode) : m ∈ allModes := by cases m <;> decide

theorem mem_destinationModes {m : Mode} : m ∈ destinationModes ↔ m ≠ .immediate := by cases m <;> decide

/-- The legal shapes of an opcode, in the order of its words in `legalWordsOf`. -/
def legalShapesOf : Opcode → List Shape
  | .f0      => [.f0]
  | .f1 .inp => destinationModes.map (.f1 .inp)
  | .f1 .out => allModes.map (.f1 .out)
  | .f1 .arb => allModes.map (.f1 .arb)
  | .f2 o    => allModes.flatMap fun m1 => allModes.map fun m0 => .f2 o m0 m1
  | .f3 o    => destinationModes.flatMap fun m2 => allModes.flatMap fun m1 => allModes.map fun m0 => .f3 o m0 m1 m2

theorem mem_legalShapesOf {op : Opcode} {sh : Shape} : sh ∈ legalShapesOf op ↔ sh.Legal ∧ sh.opcode = op := by
  constructor
  · rcases op with _ | (_ | _ | _) | o | o <;>
      simp only [legalShapesOf, List.mem_flatMap, List.mem_map, List.mem_singleton, mem_destinationModes]
    · rintro rfl
      exact ⟨trivial, rfl⟩
    · rintro ⟨m, hm, rfl⟩
      exact ⟨hm, rfl⟩
    · rintro ⟨m, -, rfl⟩
      exact ⟨trivial, rfl⟩
    · rintro ⟨m, -, rfl⟩
      exact ⟨trivial, rfl⟩
    · rintro ⟨m1, -, m0, -, rfl⟩
      exact ⟨trivial, rfl⟩
    · rintro ⟨m2, hm2, m1, -, m0, -, rfl⟩
      exact ⟨hm2, rfl⟩
  · rintro ⟨h, rfl⟩
    rcases sh with _ | ⟨_ | _ | _, m⟩ | ⟨o, m0, m1⟩ | ⟨o, m0, m1, m2⟩
    · exact List.mem_singleton_self _
    · exact List.mem_map_of_mem (mem_destinationModes.mpr h)
    · exact List.mem_map_of_mem (mem_allModes m)
    · exact List.mem_map_of_mem (mem_allModes m)
    · exact List.mem_flatMap_of_mem (mem_allModes m1) (List.mem_map_of_mem (mem_allModes m0))
    · exact List.mem_flatMap_of_mem (mem_destinationModes.mpr h)
        (List.mem_flatMap_of_mem (mem_allModes m1) (List.mem_map_of_mem (mem_allModes m0)))

/-- The legal words of an opcode are the numbers of its legal shapes. -/
theorem legalWordsOf_eq (op : Opcode) : legalWordsOf op = (legalShapesOf op).map fun sh => (sh.number : Int) := by
  rcases op with _ | o | o | o
  · rfl
  all_goals cases o <;> rfl

theorem mem_legalWordsOf {op : Opcode} {x : Int} :
    x ∈ legalWordsOf op ↔ ∃ sh : Shape, sh.Legal ∧ sh.opcode = op ∧ (sh.number : Int) = x := by
  simp [legalWordsOf_eq, mem_legalShapesOf, and_assoc]

/-- In mode `fault` the words that decode as an opcode are its legal words. -/
theorem decodeWord_fault_iff (op : Opcode) (w : Word) :
    (∃ sh, decodeWord .fault w = .ok sh ∧ sh.opcode = op) ↔ w.toInt ∈ legalWordsOf op := by
  rw [mem_legalWordsOf]
  constructor
  · rintro ⟨sh, hw, rfl⟩
    obtain ⟨h0, hlegal, -, hnum⟩ := decodeWord_eq_ok.mp hw
    have hval := hnum rfl
    exact ⟨sh, hlegal, rfl, by omega⟩
  · rintro ⟨sh, hlegal, rfl, hnum⟩
    refine ⟨sh, ?_, rfl⟩
    rw [← Shape.decodeWord_number hlegal .fault, ← BitVec.ofInt_natCast, hnum, BitVec.ofInt_toInt]

/-- In mode `ignore` a word that is not negative decodes when it is a legal word of its opcode but for the digits above
the last mode digit (R77). -/
theorem decodeWord_ignore_iff {w : Word} (h0 : 0 ≤ w.toInt) :
    (∃ sh, decodeWord .ignore w = .ok sh) ↔
      ∃ op, Opcode.ofCode (w.toInt % 100).toNat = some op ∧ w.toInt % 10 ^ (2 + op.operandCount) ∈ legalWordsOf op := by
  have natMod : ∀ k : Nat, ((w.toInt.toNat % 10 ^ k : Nat) : Int) = w.toInt % 10 ^ k := fun k => by
    push_cast
    rw [Int.toNat_of_nonneg h0]
  constructor
  · rintro ⟨sh, hw⟩
    obtain ⟨-, hlegal, hnum, -⟩ := decodeWord_eq_ok.mp hw
    refine ⟨sh.opcode, ?_, mem_legalWordsOf.mpr ⟨sh, hlegal, rfl, ?_⟩⟩
    · rw [opcode_of_decodeWord hw, Int.toNat_natCast, Opcode.ofCode_of_code]
    · rw [← hnum, natMod]
      rfl
  · rintro ⟨op, -, hmem⟩
    obtain ⟨sh, hlegal, rfl, hnum⟩ := mem_legalWordsOf.mp hmem
    refine ⟨sh, decodeWord_eq_ok.mpr ⟨h0, hlegal, ?_, nofun⟩⟩
    exact Int.ofNat_inj.mp ((natMod _).trans hnum.symm)

/-- Settles O4: the legal words are the numbers of the legal shapes, and a word decodes to the shape
whose number it is. -/
theorem legalWordsDecode : Obligations.LegalWordsDecode :=
  ⟨by decide, by decide, decodeWord_fault_iff, fun _ => decodeWord_ignore_iff⟩

/-- Settles O5: the ten lists are closed, and the decoder computes on each. -/
theorem sampleWordsDecode : Obligations.SampleWordsDecode := by
  refine ⟨?_, ?_, ?_, ?_, ?_, ?_, ?_, ?_, ?_, ?_⟩ <;> decide

/-! ## How a word with a recognised opcode decodes -/

/-- The numbers of the opcodes (R72). -/
theorem Opcode.code_mem (op : Opcode) :
    (op.code : Int) ∈ ([1, 2, 3, 4, 5, 6, 7, 8, 9, 99] : List Int) := by
  rcases op with _ | o | o | o
  · decide
  all_goals cases o <;> decide

/-- The decoder's first two checks are the sign and the opcode (R73, R74). -/
theorem decodeWord_invalidOpcode {w : Word} (hm : HighDigitsMode)
    (h : w.toInt < 0 ∨ (0 ≤ w.toInt ∧ w.toInt % 100 ∉ ([1, 2, 3, 4, 5, 6, 7, 8, 9, 99] : List Int))) :
    decodeWord hm w = .error .invalidOpcode := by
  rw [decodeWord]
  rcases h with hneg | ⟨h0, hcode⟩
  · rw [if_pos hneg]
  · rw [if_neg (not_lt.mpr h0)]
    split
    · rfl
    · rename_i op hop
      have hnat := Opcode.eq_code_of_ofCode hop
      have hval : w.toInt % 100 = op.code := by omega
      exact absurd (hval ▸ op.code_mem) hcode

/-- A word that is not negative and has a recognised opcode decodes by that opcode (R79). -/
theorem decodeWord_of_opcode {w : Word} {op : Opcode} (hm : HighDigitsMode) (h0 : 0 ≤ w.toInt)
    (hop : Opcode.ofCode (w.toInt % 100).toNat = some op) : decodeWord hm w = decodeShape hm w.toNat op := by
  rw [toInt_eq_toNat_of_nonneg h0] at hop
  have hop' : Opcode.ofCode (w.toNat % 100) = some op := hop
  rw [decodeWord, if_neg (not_lt.mpr h0), toInt_eq_toNat_of_nonneg h0, Int.toNat_natCast, hop']

/-- A mode digit of at most 2 names a mode (R75). -/
theorem decodeMode_of_le {w : Nat} {i : OperandIndex} (h : digit w (2 + i) ≤ 2) : ∃ m, decodeMode w i = .ok m := by
  obtain h | h | h : digit w (2 + i) = 0 ∨ digit w (2 + i) = 1 ∨ digit w (2 + i) = 2 := by omega
  · exact ⟨.positional, decodeMode_eq_ok.mpr h⟩
  · exact ⟨.immediate, decodeMode_eq_ok.mpr h⟩
  · exact ⟨.relative, decodeMode_eq_ok.mpr h⟩

section DecodeShape
variable {hm : HighDigitsMode} {w : Nat} {op : Opcode}

/-- The lowest operand with a mode digit above 2 decides (R76, R79). -/
theorem decodeShape_invalidMode {i : OperandIndex} (hi : i.val < op.operandCount)
    (hlow : ∀ j : OperandIndex, j < i → digit w (2 + j) ≤ 2) (hbad : 2 < digit w (2 + i)) :
    decodeShape hm w op = .error (.invalidMode i (digit w (2 + i))) := by
  have herr := decodeMode_eq_error hbad
  match i with
  | 0 =>
    cases op with
    | f0 => cases hi
    | f1 o | f2 o | f3 o => simp only [decodeShape, herr, error_bind]
  | 1 =>
    obtain ⟨m0, h0⟩ := decodeMode_of_le (hlow 0 (by decide))
    cases op with
    | f0 | f1 o => simp [Opcode.operandCount] at hi
    | f2 o | f3 o => simp only [decodeShape, h0, herr, ok_bind, error_bind]
  | 2 =>
    obtain ⟨m0, h0⟩ := decodeMode_of_le (hlow 0 (by decide))
    obtain ⟨m1, h1⟩ := decodeMode_of_le (hlow 1 (by decide))
    cases op with
    | f0 | f1 o | f2 o => simp [Opcode.operandCount] at hi
    | f3 o => simp only [decodeShape, h0, h1, herr, ok_bind, error_bind]

variable (hdigits : ∀ j : OperandIndex, j.val < op.operandCount → digit w (2 + j) ≤ 2)
include hdigits

/-- With legal mode digits, high digits that are refused decide (R77, R79). -/
theorem decodeShape_highDigits (hhigh : high w (2 + op.operandCount) ≠ 0) :
    decodeShape .fault w op = .error (.highDigits (high w (2 + op.operandCount))) := by
  have mode := fun j hj => decodeMode_of_le (hdigits j hj)
  cases op with
  | f0 => simp only [decodeShape, checkHighDigits_eq_error (n := 0) hhigh, error_bind, Opcode.operandCount]
  | f1 o =>
    obtain ⟨m0, h0⟩ := mode 0 (by simp [Opcode.operandCount])
    simp only [decodeShape, h0, checkHighDigits_eq_error (n := 1) hhigh, ok_bind, error_bind, Opcode.operandCount]
  | f2 o =>
    obtain ⟨m0, h0⟩ := mode 0 (by simp [Opcode.operandCount])
    obtain ⟨m1, h1⟩ := mode 1 (by simp [Opcode.operandCount])
    simp only [decodeShape, h0, h1, checkHighDigits_eq_error (n := 2) hhigh, ok_bind, error_bind,
      Opcode.operandCount]
  | f3 o =>
    obtain ⟨m0, h0⟩ := mode 0 (by simp [Opcode.operandCount])
    obtain ⟨m1, h1⟩ := mode 1 (by simp [Opcode.operandCount])
    obtain ⟨m2, h2⟩ := mode 2 (by simp [Opcode.operandCount])
    simp only [decodeShape, h0, h1, h2, checkHighDigits_eq_error (n := 3) hhigh, ok_bind, error_bind,
      Opcode.operandCount]

/-- With legal mode digits and no high digits that are refused, mode digit 1 of the destination decides (R78, R79). -/
theorem decodeShape_immediateDestination {d : OperandIndex} (hd : destinationIndex op = some d)
    (hhigh : hm = .fault → high w (2 + op.operandCount) = 0) (himm : digit w (2 + d) = 1) :
    decodeShape hm w op = .error (.immediateDestination d) := by
  have hi : decodeMode w d = .ok .immediate := decodeMode_eq_ok.mpr himm
  have hc : checkHighDigits hm w op.operandCount = .ok () := checkHighDigits_eq_ok.mpr hhigh
  rcases op with _ | (_ | _ | _) | o | o <;> cases hd
  case f1.inp.refl =>
    simp only [Opcode.operandCount] at hc
    simp only [decodeShape, hi, hc, checkDestinationF1, checkDestinationMode, ok_bind, error_bind]
  case f3.refl =>
    obtain ⟨m0, h0⟩ := decodeMode_of_le (hdigits 0 (by simp [Opcode.operandCount]))
    obtain ⟨m1, h1⟩ := decodeMode_of_le (hdigits 1 (by simp [Opcode.operandCount]))
    simp only [Opcode.operandCount] at hc
    simp only [decodeShape, h0, h1, hi, hc, checkDestinationMode, ok_bind, error_bind]

end DecodeShape

/-- The low digits of a number are those of its remainder. -/
theorem digit_mod {w j k : Nat} (h : j < k) : digit (w % 10 ^ k) j = digit w j := by
  obtain ⟨r, rfl⟩ : ∃ r, k = j + (1 + r) := ⟨k - j - 1, by omega⟩
  rw [digit, digit, pow_add, pow_add, pow_one, Nat.mod_mul_right_div_self, Nat.mod_mul_right_mod]

/-- Decoding with `ignore` is decoding the opcode's and the mode digits alone (R77). -/
theorem decodeShape_ignore (w : Nat) (op : Opcode) :
    decodeShape .ignore w op = decodeShape .fault (w % 10 ^ (2 + op.operandCount)) op := by
  have mode : ∀ j : OperandIndex, j.val < op.operandCount →
      decodeMode (w % 10 ^ (2 + op.operandCount)) j = decodeMode w j := fun j hj => by
    rw [decodeMode, digit_mod (by omega), decodeMode]
  have hhigh : checkHighDigits .fault (w % 10 ^ (2 + op.operandCount)) op.operandCount =
      checkHighDigits .ignore w op.operandCount :=
    checkHighDigits_eq_ok.mpr fun _ => Nat.div_eq_of_lt (Nat.mod_lt _ (by positivity))
  generalize w % 10 ^ (2 + op.operandCount) = v at mode hhigh
  cases op with
  | f0 =>
    simp only [decodeShape, Opcode.operandCount] at hhigh ⊢
    rw [hhigh]
  | f1 o =>
    have h0 := mode 0 (by simp [Opcode.operandCount])
    simp only [decodeShape, h0, Opcode.operandCount] at hhigh ⊢
    rw [hhigh]
  | f2 o =>
    have h0 := mode 0 (by simp [Opcode.operandCount])
    have h1 := mode 1 (by simp [Opcode.operandCount])
    simp only [decodeShape, h0, h1, Opcode.operandCount] at hhigh ⊢
    rw [hhigh]
  | f3 o =>
    have h0 := mode 0 (by simp [Opcode.operandCount])
    have h1 := mode 1 (by simp [Opcode.operandCount])
    have h2 := mode 2 (by simp [Opcode.operandCount])
    simp only [decodeShape, h0, h1, h2, Opcode.operandCount] at hhigh ⊢
    rw [hhigh]

end Sys2Proof

namespace Sys2Proof.Machine

/-! ## The decoder's faults in a step -/

/-- A step on a word that the decoder rejects takes that fault (R102, R103). -/
theorem step_of_decodeWord_error {s : State} {e : DecodeError} (hl : s.status.isLive = true) (hpc : s.pc ≤ addrMax)
    (h : decodeWord s.cfg.highDigits (s.mem.read s.pc) = .error e) : step s = .next (raiseFault s (decodeTrap e)) :=
  step_eq_next.mpr (.inr ⟨hl, hpc, .inl ⟨_, by rw [fetch, h], rfl⟩⟩)

/-- Settles O6: the decoder rejects such a word, and the step takes its fault. -/
theorem negativeOrUnknownOpcodeFaults : Obligations.NegativeOrUnknownOpcodeFaults := by
  intro s hl hpc hw
  exact step_of_decodeWord_error (e := .invalidOpcode) hl hpc (decodeWord_invalidOpcode _ hw)

/-- Settles O7: the modes are checked from the lowest operand up, before anything else but the opcode. -/
theorem badModeDigitFaults : Obligations.BadModeDigitFaults := by
  intro s op i hl hpc h0 hop hi hlow hbad
  refine step_of_decodeWord_error (e := .invalidMode i _) hl hpc ?_
  rw [decodeWord_of_opcode _ h0 hop]
  exact decodeShape_invalidMode hi hlow hbad

/-- Settles O8: with legal modes the high digits are the next check, and without that check they are not looked at. -/
theorem highDigitsByMode : Obligations.HighDigitsByMode := by
  refine ⟨fun s op hl hpc hmode h0 hop hdigits hhigh => ?_, fun w w' op h0 hop hw' => ?_⟩
  · refine step_of_decodeWord_error (e := .highDigits _) hl hpc ?_
    rw [hmode, decodeWord_of_opcode _ h0 hop]
    exact decodeShape_highDigits hdigits hhigh
  · have h0' : 0 ≤ w'.toInt := hw' ▸ Int.emod_nonneg _ (by positivity)
    have hop' : Opcode.ofCode (w'.toInt % 100).toNat = some op := by
      have hdvd : (100 : Int) ∣ 10 ^ (2 + op.operandCount) := pow_dvd_pow 10 (Nat.le_add_right 2 _)
      rw [hw', Int.emod_emod_of_dvd _ hdvd, hop]
    have hnat : w'.toNat = w.toNat % 10 ^ (2 + op.operandCount) := by
      rw [toInt_eq_toNat_of_nonneg h0, toInt_eq_toNat_of_nonneg h0'] at hw'
      exact_mod_cast hw'
    rw [decodeWord_of_opcode _ h0 hop, decodeWord_of_opcode _ h0' hop', hnat, decodeShape_ignore]

/-- Settles O9: the destination is the decoder's last check. -/
theorem immediateDestinationFaults : Obligations.ImmediateDestinationFaults := by
  intro s op d hl hpc h0 hop hd hdigits hhigh himm
  refine step_of_decodeWord_error (e := .immediateDestination d) hl hpc ?_
  rw [decodeWord_of_opcode _ h0 hop]
  exact decodeShape_immediateDestination hdigits hd hhigh himm

/-! ## An instruction that no decoder made -/

/-- An instruction that is not well formed fails its destination check before anything else (R78; log entry 7). -/
theorem effect_of_not_wf {s : State} {i : Instr} {k : OperandIndex} {d : Operand} (hwf : i.wf = false)
    (hd : i.destination = some (k, d)) : effect s i = .error (immediateDestination k) := by
  have hdst : d.isDestination = false := by simpa [Instr.wf, hd] using hwf
  have check : checkDestination k d = .error (immediateDestination k) := by simp [checkDestination, hdst]
  cases i with
  | out a | jt c t | jf c t | arb a | hlt => cases hd
  | add a b d | mul a b d | lt a b d | eq a b d =>
    cases hd
    simp only [effect, storeBinary, check, error_bind]
  | inp d =>
    cases hd
    simp only [effect, receive, check, error_bind]

/-- Settles O30: such an instruction fails its destination check. -/
theorem illFormedInstructionFaults : Obligations.IllFormedInstructionFaults :=
  fun _ _ _ _ hwf hd => exec_of_effect_error (effect_of_not_wf hwf hd)

/-! ## Pseudo-instructions (R89) -/

theorem wordNumber_pseudoMov (a d : Operand) :
    (pseudoMov a d).wordNumber = 1 + 100 * a.mode.toDigit + 1000 + 10000 * d.mode.toDigit := by
  change 1 + 100 * (a.mode.toDigit + 10 * (1 + 10 * (d.mode.toDigit + 10 * 0))) = _
  ring

theorem wordNumber_pseudoJmp (g : Operand) : (pseudoJmp g).wordNumber = 105 + 1000 * g.mode.toDigit := by
  change 5 + 100 * (1 + 10 * (g.mode.toDigit + 10 * 0)) = _
  ring

/-- MOV writes the source's effective value: its sum with 0 is in the word range (41_arithmetic.md R125). -/
theorem effect_pseudoMov {s : State} {a d : Operand} (ha : readable s a = true) (hd : writable s d = true)
    (hc : admits s.cfg.memCapacity (storeAddress s d + 1) = true) (hpc : s.pc + 4 ≤ addrMax) :
    effect s (pseudoMov a d) = .ok
      { s with mem := s.mem.write (storeAddress s d) (sourceValue s a), pc := s.pc + 4, status := .running } := by
  have hsum : wordResult s.cfg.overflow ((sourceValue s a).toInt + (sourceValue s (.immediate 0)).toInt) =
      .ok (sourceValue s a) := by
    have hzero : (sourceValue s (.immediate 0)).toInt = 0 := rfl
    rw [hzero, add_zero, wordResult_of_toInt]
  exact storeBinary_eq_ok.mpr ⟨ha, rfl, hd, hc, hpc, _, hsum, rfl⟩

/-- JMP to a negative target fails the check of its target (43_branch.md R135). -/
theorem effect_pseudoJmp_of_neg {s : State} {g : Operand} (hg : readable s g = true)
    (hneg : (sourceValue s g).toInt < 0) :
    effect s (pseudoJmp g) = .error ⟨.negativeAddress, some 1, some (sourceValue s g).toInt⟩ := by
  have hcond : readable s (.immediate 1) = true := rfl
  have htaken : decide (sourceValue s (.immediate 1) ≠ 0) = true := rfl
  change jumpWhen s (.immediate 1) g (fun x => x ≠ 0) = _
  simp only [jumpWhen, resolveSrc_of_readable _ hcond, resolveSrc_of_readable _ hg, htaken, if_true,
    checkAddr_eq_error.mpr (.inl ⟨hneg, rfl⟩), ok_bind, error_bind]

/-- Settles O60: each is the instruction that it stands for, with the value of its immediate operands put in. -/
theorem pseudoInstructions : Obligations.PseudoInstructions := by
  refine ⟨fun a d => ?_, fun g => ?_, rfl, fun s a d ha hd hc hpc => ?_, fun s g hg h0 => ?_, fun s g hg hneg => ?_,
    fun s hpc => ?_⟩
  · rw [encode, wordNumber_pseudoMov]
    rfl
  · rw [encode, wordNumber_pseudoJmp]
    rfl
  · exact exec_eq_next.mpr (.inl (effect_pseudoMov ha hd hc hpc))
  · refine exec_eq_next.mpr (.inl (jumpWhen_eq_ok.mpr ⟨rfl, hg, .inl ⟨rfl, ⟨h0, ?_⟩, rfl⟩⟩))
    exact (isWord_toInt _).2
  · exact exec_of_effect_error (effect_pseudoJmp_of_neg hg hneg)
  · exact exec_eq_next.mpr (.inl (jumpWhen_eq_ok.mpr ⟨rfl, rfl, .inr ⟨rfl, hpc, rfl⟩⟩))

end Sys2Proof.Machine
end

section
/-! PROOFS. The execution cycle (40_execution_cycle.md): the fetch, the order of an instruction's checks, the status that a
step leaves, and the STEP and RUN commands. -/

namespace Sys2Proof.Machine

/-! ## The fetch (R102 to R104) -/

/-- A live step runs the instruction that it fetches. -/
theorem step_of_fetch {s : State} {i : Instr} (hl : s.status.isLive = true) (hpc : s.pc ≤ addrMax)
    (h : fetch s = .ok i) : step s = exec i s := by
  rw [step_of_live hl, liveStep, if_pos hpc, h]

/-- A live step takes the fault of its fetch. -/
theorem step_of_fetch_error {s : State} {e : Trap} (hl : s.status.isLive = true) (hpc : s.pc ≤ addrMax)
    (h : fetch s = .error e) : step s = .next (raiseFault s e) := by
  rw [step_of_live hl, liveStep, if_pos hpc, h]

/-- An instruction is as long as the shape that it was made from says (30_encoding.md R70). -/
theorem length_instr (sh : Shape) (ps : List Word) : (sh.instr ps).length = sh.operandCount + 1 := by
  rw [Instr.length, Shape.opcode_instr, Shape.operandCount, Nat.add_comm]

/-- The fetch answers the instruction that the words at `pc` decode to, where they are in the address space. -/
theorem fetch_of_decode {s : State} {i : Instr} (htop : s.pc + i.length ≤ addrMax + 1)
    (h : decode s.cfg.highDigits (s.mem.readWords s.pc i.length) = .ok (i, [])) : fetch s = .ok i := by
  obtain ⟨w, ps, sh, hwords, hw, -, hi, -⟩ := decode_eq_ok.mp h
  have hlen : i.length = sh.operandCount + 1 := hi ▸ length_instr sh ps
  rw [hlen, Memory.readWords] at hwords
  obtain ⟨rfl, rfl⟩ := List.cons.inj hwords
  rw [fetch, hw, hi]
  simp only [operandWords_eq_ok (i := 0) (show s.pc + 1 + 0 + sh.operandCount ≤ addrMax + 1 by omega), ok_bind]

/-- Settles O10: the fetch answers the decoded instruction, and the step runs what it fetches. -/
theorem stepRunsDecodedInstruction : Obligations.StepRunsDecodedInstruction := by
  intro s i hl htop h
  have hlen : 1 ≤ i.length := Nat.le_add_right 1 _
  exact step_of_fetch hl (by omega) (fetch_of_decode htop h)

/-- The operand words are fetched in ascending order, so the one just above `ADDR_MAX` is the first that faults (R104). -/
theorem operandWords_beyond_top {s : State} {i k n : Nat} (hk : k < n) (htop : s.pc + 1 + i + k = addrMax + 1) :
    operandWords s i n = .error ⟨.addressOverflow, some (Fin.ofNat 3 (i + k)), some ((addrMax : Int) + 1)⟩ := by
  induction n generalizing i k with
  | zero => omega
  | succ n ih =>
    rw [operandWords]
    cases k with
    | zero =>
      have haddr : (s.pc : Int) + 1 + i = (addrMax : Int) + 1 := by omega
      rw [haddr, checkAddr_eq_error.mpr (.inr ⟨by omega, rfl⟩)]
      rfl
    | succ k =>
      have haddr : (s.pc : Int) + 1 + i = ((s.pc + 1 + i : Nat) : Int) := by push_cast; rfl
      rw [haddr, checkAddr_natCast _ (by omega), ok_bind, ih (i := i + 1) (k := k) (by omega) (by omega),
        error_bind, Nat.add_right_comm i 1 k]
      rfl

/-- Settles O11: the word decodes, and of its operand words `k` is the first that is not at an address. -/
theorem operandWordBeyondTopFaults : Obligations.OperandWordBeyondTopFaults := by
  intro s sh k hl hpc hw hk htop
  refine step_of_fetch_error (e := ⟨.addressOverflow, some k, some ((addrMax : Int) + 1)⟩) hl hpc ?_
  have hindex : Fin.ofNat 3 (0 + k.val) = k := by simp
  rw [fetch, hw]
  simp only [operandWords_beyond_top (i := 0) hk htop, error_bind, hindex]

/-! ## The order of an instruction's checks (R107, R108) -/

/-- A three-operand instruction resolves its operands in ascending order, before it computes anything. -/
theorem storeBinary_of_operandFault {s : State} {a b d : Operand} {e : Trap} (hd : d.isDestination = true)
    (h : (operandFault s 0 a).or ((operandFault s 1 b).or (operandFault s 2 d)) = some e)
    (f : Word → Word → Except Trap Word) : storeBinary s a b d f = .error e := by
  rw [storeBinary, (checkDestination_eq_ok (u := ())).mpr hd, ok_bind]
  rcases Option.or_eq_some_iff.mp h with ha | ⟨ha, h⟩
  · rw [resolveSrc_of_operandFault ha, error_bind]
  · rw [resolveSrc_of_readable 0 (readable_of_operandFault_none ha), ok_bind]
    rcases Option.or_eq_some_iff.mp h with hb | ⟨hb, hd⟩
    · rw [resolveSrc_of_operandFault hb, error_bind]
    · rw [resolveSrc_of_readable 1 (readable_of_operandFault_none hb), ok_bind, resolveDst_of_operandFault hd,
        error_bind]

/-- A jump resolves its condition and then its target, before it looks at the condition. -/
theorem jumpWhen_of_operandFault {s : State} {c g : Operand} {e : Trap}
    (h : (operandFault s 0 c).or (operandFault s 1 g) = some e) (taken : Word → Bool) :
    jumpWhen s c g taken = .error e := by
  rw [jumpWhen]
  rcases Option.or_eq_some_iff.mp h with hc | ⟨hc, hg⟩
  · rw [resolveSrc_of_operandFault hc, error_bind]
  · rw [resolveSrc_of_readable 0 (readable_of_operandFault_none hc), ok_bind, resolveSrc_of_operandFault hg,
      error_bind]

/-- A well-formed instruction fails with the fault of its lowest operand that has one. -/
theorem effect_of_operandFault {s : State} {i : Instr} {e : Trap} (hwf : i.wf = true)
    (h : firstOperandFault s i = some e) : effect s i = .error e := by
  cases i with
  | add a b d | mul a b d | lt a b d | eq a b d => exact storeBinary_of_operandFault hwf h _
  | jt c g | jf c g => exact jumpWhen_of_operandFault h _
  | inp d =>
    rw [effect, receive, (checkDestination_eq_ok (u := ())).mpr hwf, ok_bind, resolveDst_of_operandFault h, error_bind]
  | out a => rw [effect, emit, resolveSrc_of_operandFault h, error_bind]
  | arb a => rw [effect, adjustBase, resolveSrc_of_operandFault h, error_bind]
  | hlt => cases h

/-- Settles O29: an instruction's effect begins with its operands, the lowest first, and its fault is the instruction's. -/
theorem lowestOperandFaultDecides : Obligations.LowestOperandFaultDecides :=
  fun _ _ _ hwf h => exec_of_effect_error (effect_of_operandFault hwf h)

/-! ## The next `pc` above `ADDR_MAX` (R105) -/

section NextPc
variable {s : State} {a b d : Operand}

/-- A three-operand instruction that has a result and room for it fails where it cannot fall through. -/
theorem storeBinary_beyond_top (hpc : addrMax < s.pc + 4) (ha : readable s a = true) (hb : readable s b = true)
    (hw : writable s d = true) (hc : admits s.cfg.memCapacity (storeAddress s d + 1) = true)
    {f : Word → Word → Except Trap Word} (hf : ∃ r, f (sourceValue s a) (sourceValue s b) = .ok r) :
    storeBinary s a b d f = .error ⟨.addressOverflow, none, some ((s.pc : Int) + 4)⟩ := by
  obtain ⟨r, hr⟩ := hf
  simp only [storeBinary, checkDestination_of_writable 2 hw, resolveSrc_of_readable _ ha, resolveSrc_of_readable _ hb,
    resolveDst_eq_ok.mpr ⟨hw, rfl⟩, hr, storeWord_eq_ok.mpr ⟨hc, rfl⟩, fallThrough_eq_error.mpr ⟨hpc, rfl⟩, ok_bind,
    error_bind]
  rfl

/-- A jump that is not taken fails where it cannot fall through. -/
theorem jumpWhen_beyond_top (hpc : addrMax < s.pc + 3) (ha : readable s a = true) (hb : readable s b = true)
    {taken : Word → Bool} (hnot : taken (sourceValue s a) = false) :
    jumpWhen s a b taken = .error ⟨.addressOverflow, none, some ((s.pc : Int) + 3)⟩ := by
  simp only [jumpWhen, resolveSrc_of_readable _ ha, resolveSrc_of_readable _ hb, hnot,
    fallThrough_eq_error.mpr ⟨hpc, rfl⟩, ok_bind, error_bind]
  rfl

/-- IN with a value and room for it fails where it cannot fall through. -/
theorem receive_beyond_top (hpc : addrMax < s.pc + 2) (hq : s.iq ≠ []) (hw : writable s d = true)
    (hc : admits s.cfg.memCapacity (storeAddress s d + 1) = true) :
    receive s d = .error ⟨.addressOverflow, none, some ((s.pc : Int) + 2)⟩ := by
  obtain ⟨v, vs, hvs⟩ := List.exists_cons_of_ne_nil hq
  simp only [receive, checkDestination_of_writable 0 hw, resolveDst_eq_ok.mpr ⟨hw, rfl⟩, hvs,
    storeWord_eq_ok.mpr ⟨hc, rfl⟩, fallThrough_eq_error.mpr ⟨hpc, rfl⟩, ok_bind, error_bind]
  rfl

/-- OUT with room in the output queue fails where it cannot fall through. -/
theorem emit_beyond_top (hpc : addrMax < s.pc + 2) (ha : readable s a = true)
    (hc : admits s.cfg.oqCapacity (s.oq.length + 1) = true) :
    emit s a = .error ⟨.addressOverflow, none, some ((s.pc : Int) + 2)⟩ := by
  simp only [emit, resolveSrc_of_readable _ ha, pushOutput_eq_ok.mpr ⟨hc, rfl⟩, fallThrough_eq_error.mpr ⟨hpc, rfl⟩,
    ok_bind, error_bind]
  rfl

/-- ARB that has a result fails where it cannot fall through. -/
theorem adjustBase_beyond_top (hpc : addrMax < s.pc + 2) (ha : readable s a = true)
    (hr : ∃ r, wordResult s.cfg.overflow (s.rb.toInt + (sourceValue s a).toInt) = .ok r) :
    adjustBase s a = .error ⟨.addressOverflow, none, some ((s.pc : Int) + 2)⟩ := by
  obtain ⟨r, hr⟩ := hr
  simp only [adjustBase, resolveSrc_of_readable _ ha, hr, fallThrough_eq_error.mpr ⟨hpc, rfl⟩, ok_bind, error_bind]
  rfl

end NextPc

/-- Settles O32: the next `pc` is the last check of every instruction that falls through. -/
theorem nextPcBeyondTopFaults : Obligations.NextPcBeyondTopFaults := by
  refine fun s a b d => ⟨fun hpc ha hb hw hc => ?_, fun hpc ha hb => ⟨fun h0 => ?_, fun h0 => ?_⟩,
    fun hpc => ⟨fun hq hw hc => ?_, fun ha hc => ?_, fun ha hr => ?_⟩⟩
  · have binary := fun f => storeBinary_beyond_top hpc ha hb hw hc (f := f)
    exact ⟨fun h => exec_of_effect_error (binary _ (wordResult_answers h)),
      fun h => exec_of_effect_error (binary _ (wordResult_answers h)),
      exec_of_effect_error (binary _ ⟨_, rfl⟩), exec_of_effect_error (binary _ ⟨_, rfl⟩)⟩
  · exact exec_of_effect_error (jumpWhen_beyond_top hpc ha hb (by simpa using h0))
  · exact exec_of_effect_error (jumpWhen_beyond_top hpc ha hb (by simpa using h0))
  · exact exec_of_effect_error (receive_beyond_top hpc hq hw hc)
  · exact exec_of_effect_error (emit_beyond_top hpc ha hc)
  · exact exec_of_effect_error (adjustBase_beyond_top hpc ha (wordResult_answers hr))

/-! ## The frame of ADD, MUL, LT and EQ (R106) -/

/-- What a three-operand instruction commits leaves everything but `pc`, the status and the word at its resolved
destination. -/
theorem storeBinary_frame {s t : State} {a b d : Operand} {f : Word → Word → Except Trap Word}
    (h : storeBinary s a b d f = .ok t) :
    t.cfg = s.cfg ∧ t.rb = s.rb ∧ t.iq = s.iq ∧ t.oq = s.oq ∧
      (∀ x, (∀ ea, resolveDst s 2 d = .ok ea → x ≠ ea) → t.mem.read x = s.mem.read x) ∧
      t.status = .running ∧ t.fault = s.fault := by
  obtain ⟨-, -, hw, -, -, r, -, rfl⟩ := storeBinary_eq_ok.mp h
  exact ⟨rfl, rfl, rfl, rfl, fun x hx => Memory.read_write_ne _ _ (hx _ (resolveDst_eq_ok.mpr ⟨hw, rfl⟩)), rfl, rfl⟩

/-- Settles O33: the four are `storeBinary` with different results, and a fault changes the status and record alone. -/
theorem storingFrame : Obligations.StoringFrame := by
  intro s t a b d i hi hx
  rcases exec_eq_next.mp hx with h | ⟨e, -, rfl⟩
  · obtain ⟨f, hf⟩ : ∃ f, effect s i = storeBinary s a b d f := by
      rcases hi with rfl | rfl | rfl | rfl <;> exact ⟨_, rfl⟩
    obtain ⟨hcfg, hrb, hiq, hoq, hmem, hst, hfault⟩ := storeBinary_frame (hf ▸ h)
    exact ⟨hcfg, hrb, hiq, hoq, hmem, .inl ⟨hst, hfault⟩⟩
  · exact ⟨rfl, rfl, rfl, rfl, fun _ _ => rfl, .inr ⟨rfl, rfl, fun _ => rfl⟩⟩

/-! ## The status that a step leaves (R109) -/

/-- The status that an effect leaves, by the instruction's opcode. -/
theorem effect_status {s t : State} {i : Instr} (h : effect s i = .ok t) :
    t.status = if (i.opcode.code : Int) = 99 then .halted
      else if (i.opcode.code : Int) = 3 ∧ s.iq = [] then .waitingForInput else .running := by
  obtain ⟨-, -, -, hst⟩ := effect_frame h
  cases i with
  | add a b d | mul a b d | lt a b d | eq a b d | jt c g | jf c g | out a | arb a =>
    simpa [Instr.opcode, Opcode.code] using hst
  | inp d =>
    obtain ⟨-, ⟨hq, rfl⟩ | ⟨v, vs, hq, -, -, rfl⟩⟩ := receive_eq_ok.mp h <;>
      simp [Instr.opcode, Opcode.code, hq]
  | hlt =>
    cases h
    rfl

/-- Settles O41: the step is the effect of the fetched instruction, whose opcode is the word's `w mod 100`. -/
theorem statusAfterStep : Obligations.StatusAfterStep := by
  intro s t hstep hst
  rcases step_cases hstep with ⟨w, e, rfl⟩ | ⟨i, hfetch, h, -⟩
  · exact absurd rfl hst
  · rw [opcode_of_fetch hfetch]
    exact effect_status h

/-! ## The status that a step starts in (R34, R113) -/

/-- Every effect sets the status, so the one before it does not matter. -/
theorem effect_setStatus (s : State) (x : Status) (i : Instr) : effect (s.setStatus x) i = effect s i := by
  cases i <;> rfl

theorem exec_setStatus (s : State) (x : Status) (i : Instr) : exec i (s.setStatus x) = exec i s := by
  rw [exec_eq_commit, exec_eq_commit, effect_setStatus]
  cases effect s i <;> rfl

/-- An instruction attempt does not look at the status, and every one of its ends sets it. -/
theorem liveStep_setStatus (s : State) (x : Status) : liveStep (s.setStatus x) = liveStep s := by
  have hfetch : fetch (s.setStatus x) = fetch s := fetch_congr rfl rfl rfl
  rw [liveStep, liveStep, hfetch, State.setStatus_pc]
  cases fetch s with
  | error e => rfl
  | ok i => simp only [exec_setStatus]

/-- A step in a live status is the step in any other. -/
theorem step_setStatus {s : State} {x : Status} (hs : s.status.isLive = true) (hx : x.isLive = true) :
    step (s.setStatus x) = step s := by
  rw [step_of_live hs, step_of_live (s := s.setStatus x) hx, liveStep_setStatus]

/-- Settles O46: in either status the step is the same instruction attempt. -/
theorem liveStatusIsIrrelevant : Obligations.LiveStatusIsIrrelevant := by
  intro s x y hx hy
  exact step_setStatus (s := s.setStatus y) hy hx

/-! ## Suspension (R112) -/

/-- A suspending effect changes the status alone. -/
theorem effect_of_waiting {s t : State} {i : Instr} (h : effect s i = .ok t) (ht : t.status = .waitingForInput) :
    t = s.setStatus .waitingForInput := by
  obtain ⟨-, -, -, hst | ⟨hst, -⟩ | ⟨d, rfl⟩⟩ := effect_frame h
  · cases hst.symm.trans ht
  · cases hst.symm.trans ht
  · obtain ⟨-, ⟨-, rfl⟩ | ⟨v, vs, -, -, -, rfl⟩⟩ := receive_eq_ok.mp h
    · rfl
    · cases ht

/-- A step that suspends started in a live status and changed nothing else. -/
theorem step_of_waiting {s t : State} (h : step s = .next t) (ht : t.status = .waitingForInput) :
    s.status.isLive = true ∧ t = s.setStatus .waitingForInput := by
  rcases step_cases h with ⟨w, e, rfl⟩ | ⟨i, -, hi, hl⟩
  · cases ht
  · exact ⟨hl, effect_of_waiting hi ht⟩

/-! ## The loop of RUN (R110) -/

/-- One turn of the loop: it stops where its step does, or goes on from there. -/
theorem runLoop_succ_of_step {s t : State} (h : step s = .next t) (k : Nat) :
    runLoop (k + 1) s = if t.status.stopsRun then respondStatus t else runLoop k t := by
  rw [runLoop, h]

/-- A loop that responds made a step, and that step stopped it or the rest of the loop responds. -/
theorem runLoop_succ_eq_responded {k : Nat} {s t : State} {r : Response} :
    runLoop (k + 1) s = .responded r t ↔
      ∃ u, step s = .next u ∧
        ((u.status.stopsRun = true ∧ respondStatus u = .responded r t) ∨
          (u.status.stopsRun = false ∧ runLoop k u = .responded r t)) := by
  rw [runLoop]
  cases step s with
  | next u => cases hu : u.status.stopsRun <;> simp [hu]
  | fault f => simp
  | refused e => simp

/-- A loop responds the status and record of the state that it stops in. -/
theorem runLoop_response {k : Nat} {s t : State} {r : Response} (h : runLoop k s = .responded r t) :
    r = .status t.status t.fault ∧ t.status.stopsRun = true := by
  induction k generalizing s with
  | zero => cases h
  | succ k ih =>
    obtain ⟨u, -, ⟨hu, h⟩ | ⟨-, h⟩⟩ := runLoop_succ_eq_responded.mp h
    · cases h
      exact ⟨rfl, hu⟩
    · exact ih h

/-- A loop that responds does so with more fuel too, by induction on the fuel. -/
theorem runLoop_add {k : Nat} {s t : State} {r : Response} (more : Nat) (h : runLoop k s = .responded r t) :
    runLoop (k + more) s = .responded r t := by
  induction k generalizing s with
  | zero => cases h
  | succ k ih =>
    obtain ⟨u, hstep, hu⟩ := runLoop_succ_eq_responded.mp h
    rw [Nat.add_right_comm]
    exact runLoop_succ_eq_responded.mpr ⟨u, hstep, hu.imp_right fun ⟨hgo, h⟩ => ⟨hgo, ih h⟩⟩

/-- A step that does not stop a RUN ends in Running: no step leads to Ready. -/
theorem status_of_step_of_not_stopsRun {s t : State} (h : step s = .next t) (ht : ¬t.status.stopsRun = true) :
    t.status = .running := by
  rcases step_cases h with ⟨w, e, rfl⟩ | ⟨i, -, hi, -⟩
  · exact absurd rfl ht
  · obtain ⟨-, -, hst | ⟨hst, -⟩ | hst, -⟩ := effect_common hi
    · exact hst
    · exact absurd (by rw [hst]; rfl) ht
    · exact absurd (by rw [hst]; rfl) ht

theorem setStatus_running_of_running {s : State} (h : s.status = .running) : s.setStatus .running = s := by
  rw [← h]
  rfl

/-! ## STEP and RUN (R101, R110) -/

section StepAndRun
variable (fuel : Nat) {s : State}

theorem command_step_of_faulted (h : s.status = .faulted) : command fuel .step s = respondFaulted s := by
  change hostStep s = _
  rw [hostStep, h]

/-- Outside Faulted, STEP is a step. -/
theorem command_step_of_next {t : State} (h : step s = .next t) : command fuel .step s = respondStatus t := by
  change hostStep s = _
  rw [hostStep]
  split
  · rename_i hs
    cases (step_of_faulted hs).symm.trans h
  · rw [h]

theorem command_run_of_faulted (h : s.status = .faulted) :
    command fuel .run s = .responded (.refused .engineFaulted) s := by
  change hostRun fuel s = _
  rw [hostRun, h]

theorem command_run_of_halted (h : s.status = .halted) : command fuel .run s = respondStatus (usageAfterHalt s) := by
  change hostRun fuel s = _
  rw [hostRun, h]

end StepAndRun

/-- An engine is live, Halted or Faulted (10_state.md R25). -/
theorem isLive_or_terminated (s : State) : s.status.isLive = true ∨ s.status = .halted ∨ s.status = .faulted := by
  cases s.status <;> simp [Status.isLive]

/-- A live step with `pc` an address answers a next state (R117). -/
theorem step_answers {s : State} (hl : s.status.isLive = true) (hpc : s.pc ≤ addrMax) : ∃ t, step s = .next t := by
  cases h : fetch s with
  | error e => exact ⟨_, step_of_fetch_error hl hpc h⟩
  | ok i =>
    rw [step_of_fetch hl hpc h]
    exact exec_answers i s

/-- Settles O12: the entry check by status, and STEP's response to what the step answers. -/
theorem stepEntryCheck : Obligations.StepEntryCheck := by
  refine ⟨fun s => step_of_faulted, fun s => step_of_halted, fun s => step_answers, fun fuel s hs => ?_,
    fun fuel s t => command_step_of_next fuel⟩
  rw [command_step_of_faulted fuel hs, respondFaulted, hs]

/-- Settles O44: a suspended step changed the status alone, so the next one is the same step, and it stops a RUN. -/
theorem suspensionIsIdempotent : Obligations.SuspensionIsIdempotent := by
  intro s t h ht
  obtain ⟨hl, rfl⟩ := step_of_waiting h ht
  have again : ∀ x : Status, x.isLive = true → step (s.setStatus x) = .next (s.setStatus .waitingForInput) :=
    fun x hx => (step_setStatus hl hx).trans h
  refine ⟨rfl, again _ rfl, fun fuel => ?_⟩
  rw [command_run_of_live rfl]
  exact runLoop_succ_of_step (again .running rfl) fuel

/-- A STEP or RUN of a terminated engine is refused, or takes USAGE_AFTER_HALT. -/
theorem command_of_terminated {fuel : Nat} {c : Command} {s t : State} {r : Response} (hs : s.Terminated)
    (hc : c = .step ∨ c = .run) (h : command fuel c s = .responded r t) : t = s ∨ t = usageAfterHalt s := by
  rcases hs with hs | hs <;> rcases hc with rfl | rfl
  · rw [command_step_of_next fuel (step_of_halted hs)] at h
    cases h
    exact .inr rfl
  · rw [command_run_of_halted fuel hs] at h
    cases h
    exact .inr rfl
  · rw [command_step_of_faulted fuel hs] at h
    cases h
    exact .inl rfl
  · rw [command_run_of_faulted fuel hs] at h
    cases h
    exact .inl rfl

/-- Settles O45: each command is refused or takes a fault, and neither changes these elements; by induction on the
commands. -/
theorem terminatedIsFinal : Obligations.TerminatedIsFinal := by
  intro fuel cs
  induction cs with
  | nil =>
    intro s t rs hs _ h
    cases h
    exact ⟨rfl, rfl, rfl, rfl, rfl, hs⟩
  | cons c cs ih =>
    intro s t rs hs hcs h
    obtain ⟨hc, hcs⟩ := List.forall_mem_cons.mp hcs
    rw [commands] at h
    split at h
    · rename_i r u hu
      obtain ⟨⟨rs', t'⟩, hrest, heq⟩ := Option.map_eq_some_iff.mp h
      cases heq
      rcases command_of_terminated hs hc hu with rfl | rfl
      · exact ih _ _ _ hs hcs hrest
      · exact ih (usageAfterHalt s) _ _ (.inr rfl) hcs hrest
    · cases h

/-- A RUN that was not refused responds the status and record of the state that it leaves. -/
theorem run_response {fuel : Nat} {s t : State} {r : Response} (hs : s.status ≠ .faulted)
    (h : command fuel .run s = .responded r t) : r = .status t.status t.fault ∧ t.status.stopsRun = true := by
  rcases isLive_or_terminated s with hl | hs' | hs'
  · rw [command_run_of_live hl] at h
    exact runLoop_response h
  · rw [command_run_of_halted fuel hs'] at h
    cases h
    exact ⟨rfl, rfl⟩
  · exact absurd hs' hs

/-- Settles O57: RUN by status, and the loop by its fuel; a step that does not stop it ends in Running, from where a RUN
with the rest of the fuel is the rest of the loop. -/
theorem runRepeatsSteps : Obligations.RunRepeatsSteps := by
  refine ⟨fun fuel s => command_run_of_faulted fuel, fun fuel s hs => ?_, fun s hl => command_run_of_live hl,
    fun fuel s t hl hstep => ?_, fun fuel s t r hs h => ?_⟩
  · exact ⟨_, step_of_halted hs, command_run_of_halted fuel hs⟩
  · rw [command_run_of_live hl, runLoop_succ_of_step (s := s.setStatus .running) hstep]
    simp only [← stopsRun_iff]
    split
    · rfl
    · rename_i hgo
      rw [command_run_of_live (isLive_of_not_stopsRun hgo),
        setStatus_running_of_running (status_of_step_of_not_stopsRun hstep hgo)]
  · rw [← stopsRun_iff]
    exact run_response hs h

/-- Settles O58: only the loop looks at the fuel, and the refusal comes in Faulted. -/
theorem runResponseIsFinal : Obligations.RunResponseIsFinal := by
  intro fuel more s t r h
  rw [← stopsRun_iff]
  rcases isLive_or_terminated s with hl | hs | hs
  · rw [command_run_of_live hl] at h ⊢
    exact ⟨runLoop_add more h, (runLoop_response h).2⟩
  · rw [command_run_of_halted fuel hs] at h
    refine ⟨(command_run_of_halted _ hs).trans h, ?_⟩
    cases h
    rfl
  · rw [command_run_of_faulted fuel hs] at h
    refine ⟨(command_run_of_faulted _ hs).trans h, ?_⟩
    cases h
    exact stopsRun_iff.mpr (.inr (.inr hs))

end Sys2Proof.Machine
end

section
/-! PROOFS. Arithmetic (41_arithmetic.md, 45_relbase_halt.md R145): ADD, MUL and ARB by what `WordResult` answers of their
exact result. -/

namespace Sys2Proof.Machine

/-! ## `WordResult` in mode `wrap` (R125) -/

/-- In mode `wrap` the spec's formula gives the result, in the word range or not: it leaves a value of the range. -/
theorem wordResult_wrap_of_formula {x : Int} {r : Word} (hr : r.toInt = (x - wordMin) % 2 ^ 64 + wordMin) :
    wordResult .wrap x = .ok r := by
  by_cases h : IsWord x
  · have hx : r.toInt = x := by
      simp only [IsWord, wordMin, wordMax] at h hr
      omega
    rw [← hx]
    exact wordResult_of_toInt .wrap r
  · exact wordResult_wrap h hr

/-- The spec's formula is the balanced remainder, in which the library gives the value of a sum or product of words. -/
theorem bmod_eq_wrap_formula (x : Int) : x.bmod (2 ^ 64) = (x - wordMin) % 2 ^ 64 + wordMin := by
  rw [Int.bmod_def, wordMin]
  split <;> omega

/-- The value of the 64-bit sum is the spec's formula of the exact sum. -/
theorem toInt_add_eq_wrap_formula (x y : Word) :
    (x + y).toInt = (x.toInt + y.toInt - wordMin) % 2 ^ 64 + wordMin :=
  (BitVec.toInt_add x y).trans (bmod_eq_wrap_formula _)

/-- The value of the 64-bit product is the spec's formula of the exact product. -/
theorem toInt_mul_eq_wrap_formula (x y : Word) :
    (x * y).toInt = (x.toInt * y.toInt - wordMin) % 2 ^ 64 + wordMin :=
  (BitVec.toInt_mul x y).trans (bmod_eq_wrap_formula _)

/-! ## What ADD, MUL and ARB answer, by their result -/

section Arithmetic
variable {s : State} {a b d : Operand}

/-- A three-operand instruction with a result and room for it writes it, and goes on four words (R126, R127). -/
theorem exec_of_storeBinary {i : Instr} {f : Word → Word → Except Trap Word} (hi : effect s i = storeBinary s a b d f)
    (ha : readable s a = true) (hb : readable s b = true) (hw : writable s d = true)
    (hc : admits s.cfg.memCapacity (storeAddress s d + 1) = true) (hpc : s.pc + 4 ≤ addrMax) {r : Word}
    (hr : f (sourceValue s a) (sourceValue s b) = .ok r) :
    exec i s = .next { s with mem := s.mem.write (storeAddress s d) r, pc := s.pc + 4, status := .running } :=
  exec_eq_next.mpr (.inl (hi.trans (storeBinary_eq_ok.mpr ⟨ha, hb, hw, hc, hpc, r, hr, rfl⟩)))

/-- ARB with a result takes it as the new `rb` (R145). -/
theorem exec_arb_of_wordResult (ha : readable s a = true) (hpc : s.pc + 2 ≤ addrMax) {r : Word}
    (hr : wordResult s.cfg.overflow (s.rb.toInt + (sourceValue s a).toInt) = .ok r) :
    exec (.arb a) s = .next { s with rb := r, pc := s.pc + 2, status := .running } :=
  exec_eq_next.mpr (.inl (adjustBase_eq_ok.mpr ⟨ha, hpc, r, hr, rfl⟩))

/-- A three-operand instruction that resolves its operands but has no result fails as its computation does, before it
looks at the capacity or the next `pc` (40_execution_cycle.md R108). -/
theorem storeBinary_of_result_error (ha : readable s a = true) (hb : readable s b = true) (hw : writable s d = true)
    {f : Word → Word → Except Trap Word} {e : Trap} (hf : f (sourceValue s a) (sourceValue s b) = .error e) :
    storeBinary s a b d f = .error e := by
  simp only [storeBinary, checkDestination_of_writable 2 hw, resolveSrc_of_readable _ ha, resolveSrc_of_readable _ hb,
    resolveDst_eq_ok.mpr ⟨hw, rfl⟩, hf, ok_bind, error_bind]

/-- ARB that resolves its operand but has no result fails as `WordResult` does, before it looks at the next `pc`. -/
theorem adjustBase_of_result_error (ha : readable s a = true) {e : Trap}
    (he : wordResult s.cfg.overflow (s.rb.toInt + (sourceValue s a).toInt) = .error e) :
    adjustBase s a = .error e := by
  simp only [adjustBase, resolveSrc_of_readable _ ha, he, ok_bind, error_bind]

end Arithmetic

/-! ## The obligations -/

/-- Settles O14: `WordResult` of a word's value is that word, in either mode. -/
theorem addStoresSum : Obligations.AddStoresSum := by
  intro s a b d r ha hb hw hr hc hpc
  exact exec_of_storeBinary rfl ha hb hw hc hpc (hr ▸ wordResult_of_toInt _ r)

/-- Settles O15: as for the sum. -/
theorem mulStoresProduct : Obligations.MulStoresProduct := by
  intro s a b d r ha hb hw hr hc hpc
  exact exec_of_storeBinary rfl ha hb hw hc hpc (hr ▸ wordResult_of_toInt _ r)

/-- Settles O26: the result is computed as soon as the operands are resolved, and its fault is the instruction's. -/
theorem arithmeticOverflowFaults : Obligations.ArithmeticOverflowFaults := by
  intro s a b d hom ha
  have overflow : ∀ {x : Int}, ¬IsWord x →
      wordResult s.cfg.overflow x = .error ⟨.arithmeticOverflow, none, some x⟩ := fun hx => hom ▸ wordResult_fault hx
  refine ⟨fun hb hw hx => ?_, fun hb hw hx => ?_, fun hx => ?_⟩
  · exact exec_of_effect_error (storeBinary_of_result_error ha hb hw (overflow hx))
  · exact exec_of_effect_error (storeBinary_of_result_error ha hb hw (overflow hx))
  · exact exec_of_effect_error (adjustBase_of_result_error ha (overflow hx))

/-- Settles O27: in mode `wrap` the formula's word is the result, and the instruction commits it. -/
theorem arithmeticWrapsByFormula : Obligations.ArithmeticWrapsByFormula := by
  intro s a b d r hom ha
  have wraps : ∀ {x : Int}, r.toInt = (x - wordMin) % 2 ^ 64 + wordMin → wordResult s.cfg.overflow x = .ok r :=
    fun hr => hom ▸ wordResult_wrap_of_formula hr
  refine ⟨fun hb hw hc hpc hr => ?_, fun hb hw hc hpc hr => ?_, fun hpc hr => ?_⟩
  · exact exec_of_storeBinary rfl ha hb hw hc hpc (wraps hr)
  · exact exec_of_storeBinary rfl ha hb hw hc hpc (wraps hr)
  · exact exec_arb_of_wordResult ha hpc (wraps hr)

/-- Settles O28: the 64-bit sum and product are the words of the formula, so this is the wrap by the formula at them. -/
theorem wrapIsTwosComplement : Obligations.WrapIsTwosComplement := by
  intro s a b d hom ha
  have byFormula := fun r => arithmeticWrapsByFormula s a b d r hom ha
  refine ⟨fun hb hw hc hpc => ⟨?_, ?_⟩, fun hpc => ?_⟩
  · obtain ⟨add, -, -⟩ := byFormula (sourceValue s a + sourceValue s b)
    exact add hb hw hc hpc (toInt_add_eq_wrap_formula _ _)
  · obtain ⟨-, mul, -⟩ := byFormula (sourceValue s a * sourceValue s b)
    exact mul hb hw hc hpc (toInt_mul_eq_wrap_formula _ _)
  · obtain ⟨-, -, arb⟩ := byFormula (s.rb + sourceValue s a)
    exact arb hpc (toInt_add_eq_wrap_formula _ _)

end Sys2Proof.Machine
end

section
/-! PROOFS. Input and output (42_io.md): IN by what `receive` can commit, OUT by what `emit` can, and which checks raise
OUTPUT_QUEUE_FULL. -/

namespace Sys2Proof.Machine

/-! ## IN (R130) -/

/-- Settles O18: with a value waiting, room for it and a next `pc`, IN commits the receipt. -/
theorem inputReceivesFront : Obligations.InputReceivesFront := by
  intro s d v vs hw hq hc hpc
  exact exec_eq_next.mpr (.inl (receive_eq_ok.mpr ⟨hw, .inr ⟨v, vs, hq, hc, hpc, rfl⟩⟩))

/-- Settles O19: IN looks at the queue before it looks at the capacity and the next `pc`. -/
theorem inputSuspendsOnEmpty : Obligations.InputSuspendsOnEmpty := by
  intro s d hw hq
  exact exec_eq_next.mpr (.inl (receive_eq_ok.mpr ⟨hw, .inl ⟨hq, rfl⟩⟩))

/-- Settles O34: IN suspends, where it changes the status alone; or it receives, where it writes only the word at its
resolved destination; or it takes a fault, which changes the status and record alone. -/
theorem inputFrame : Obligations.InputFrame := by
  intro s t d hx
  rcases exec_eq_next.mp hx with h | ⟨e, -, rfl⟩
  · obtain ⟨hw, ⟨-, rfl⟩ | ⟨v, vs, hq, -, -, rfl⟩⟩ := receive_eq_ok.mp h
    · exact ⟨rfl, rfl, rfl, fun _ _ => rfl, .inr (.inl ⟨rfl, rfl, rfl, rfl, fun _ => rfl⟩)⟩
    · have hiq : vs = s.iq.tail := by rw [hq, List.tail_cons]
      exact ⟨rfl, rfl, rfl, fun x hx => Memory.read_write_ne _ _ (hx _ (resolveDst_eq_ok.mpr ⟨hw, rfl⟩)),
        .inl ⟨rfl, rfl, hiq⟩⟩
  · exact ⟨rfl, rfl, rfl, fun _ _ => rfl, .inr (.inr ⟨rfl, rfl, rfl, fun _ => rfl⟩)⟩

/-! ## OUT (R131, R133) -/

/-- Settles O20: with room in the queue and a next `pc`, OUT commits the push. -/
theorem outputPushesValue : Obligations.OutputPushesValue := by
  intro s a ha hc hpc
  exact exec_eq_next.mpr (.inl (emit_eq_ok.mpr ⟨ha, hc, hpc, rfl⟩))

/-- OUT without room in the output queue fails, before it looks at the next `pc` (40_execution_cycle.md R108). -/
theorem emit_of_full {s : State} {a : Operand} (ha : readable s a = true)
    (hc : admits s.cfg.oqCapacity (s.oq.length + 1) = false) : emit s a = .error ⟨.outputQueueFull, none, none⟩ := by
  simp only [emit, resolveSrc_of_readable _ ha, pushOutput_eq_error.mpr ⟨hc, rfl⟩, ok_bind, error_bind]

/-! ## Which checks fail with OUTPUT_QUEUE_FULL -/

/-- The check fails with OUTPUT_QUEUE_FULL. -/
def QueueFault {α : Type} (x : Except Trap α) : Prop := ∃ e, x = .error e ∧ e.cause = .outputQueueFull

section QueueFault
variable {α β : Type} {s : State}

@[simp] theorem not_queueFault_ok (a : α) : ¬QueueFault (.ok a) := by simp [QueueFault]

@[simp] theorem queueFault_error {e : Trap} :
    QueueFault (.error e : Except Trap α) ↔ e.cause = .outputQueueFull := by simp [QueueFault]

/-- Of two checks one after the other, the first fails with OUTPUT_QUEUE_FULL or the second does. -/
@[simp] theorem queueFault_bind {x : Except Trap α} {f : α → Except Trap β} :
    QueueFault (x >>= f) ↔ QueueFault x ∨ ∃ a, x = .ok a ∧ QueueFault (f a) := by
  cases x <;> simp

@[simp] theorem not_queueFault_checkAddr (x : Int) (i : Option OperandIndex) : ¬QueueFault (checkAddr x i) := by
  rintro ⟨e, he, hcause⟩
  rcases checkAddr_eq_error.mp he with ⟨-, rfl⟩ | ⟨-, rfl⟩ <;> cases hcause

@[simp] theorem not_queueFault_fallThrough (n : Nat) : ¬QueueFault (fallThrough s n) := not_queueFault_checkAddr _ _

@[simp] theorem not_queueFault_checkDestination (i : OperandIndex) (d : Operand) :
    ¬QueueFault (checkDestination i d) := by
  unfold checkDestination
  split <;> simp [immediateDestination]

@[simp] theorem not_queueFault_resolveSrc (i : OperandIndex) (o : Operand) : ¬QueueFault (resolveSrc s i o) := by
  cases o <;> simp [resolveSrc]

@[simp] theorem not_queueFault_resolveDst (i : OperandIndex) (o : Operand) : ¬QueueFault (resolveDst s i o) := by
  cases o <;> simp [resolveDst, immediateDestination]

@[simp] theorem not_queueFault_storeWord (i : OperandIndex) (a : Nat) (v : Word) : ¬QueueFault (storeWord s i a v) := by
  rintro ⟨e, he, hcause⟩
  obtain ⟨-, rfl⟩ := storeWord_eq_error.mp he
  cases hcause

@[simp] theorem not_queueFault_wordResult (om : OverflowMode) (x : Int) : ¬QueueFault (wordResult om x) := by
  rintro ⟨e, he, hcause⟩
  obtain ⟨-, -, rfl⟩ := wordResult_eq_error he
  cases hcause

/-- The push alone fails so, where the queue has no room (R133). -/
@[simp] theorem queueFault_pushOutput (v : Word) :
    QueueFault (pushOutput s v) ↔ admits s.cfg.oqCapacity (s.oq.length + 1) = false := by
  simp [QueueFault, pushOutput_eq_error]

@[simp] theorem not_queueFault_operandWords (i n : Nat) : ¬QueueFault (operandWords s i n) := by
  induction n generalizing i with
  | zero => exact not_queueFault_ok []
  | succ n ih => simp [operandWords, ih]

/-- A fetch does not push. -/
theorem not_queueFault_fetch : ¬QueueFault (fetch s) := by
  unfold fetch
  split
  · rename_i e _
    cases e <;> simp [decodeTrap, immediateDestination]
  · simp

theorem not_queueFault_storeBinary (a b d : Operand) {f : Word → Word → Except Trap Word}
    (hf : ∀ x y, ¬QueueFault (f x y)) : ¬QueueFault (storeBinary s a b d f) := by
  simp [storeBinary, hf]

theorem not_queueFault_jumpWhen (c g : Operand) (taken : Word → Bool) : ¬QueueFault (jumpWhen s c g taken) := by
  simp only [jumpWhen, queueFault_bind, not_queueFault_resolveSrc, false_or, not_exists, not_and]
  intro x _ y _
  split <;> simp

theorem not_queueFault_receive (d : Operand) : ¬QueueFault (receive s d) := by
  simp only [receive]
  cases s.iq <;> simp

/-- OUT fails so where its operand resolves and the queue has no room. -/
theorem queueFault_emit {a : Operand} :
    QueueFault (emit s a) ↔ readable s a = true ∧ admits s.cfg.oqCapacity (s.oq.length + 1) = false := by
  simp [emit, resolveSrc_eq_ok]

/-- OUT alone fails with OUTPUT_QUEUE_FULL, and only where the output queue has no room (R133). -/
theorem full_of_queueFault_effect {i : Instr} (h : QueueFault (effect s i)) :
    (∃ a, i = .out a) ∧ admits s.cfg.oqCapacity (s.oq.length + 1) = false := by
  cases i with
  | add a b d | mul a b d =>
    exact absurd h (not_queueFault_storeBinary a b d fun _ _ => not_queueFault_wordResult _ _)
  | lt a b d | eq a b d => exact absurd h (not_queueFault_storeBinary a b d fun _ _ => not_queueFault_ok _)
  | inp d => exact absurd h (not_queueFault_receive d)
  | out a =>
    obtain ⟨-, hfull⟩ := queueFault_emit.mp h
    exact ⟨⟨a, rfl⟩, hfull⟩
  | jt c g | jf c g => exact absurd h (not_queueFault_jumpWhen c g _)
  | arb a => simp [effect, adjustBase] at h
  | hlt => exact absurd h (not_queueFault_ok _)

end QueueFault

/-- A step that ends Faulted took USAGE_AFTER_HALT, the fault of its fetch, or the fault of the fetched instruction. -/
theorem step_ends_faulted {s t : State} (h : step s = .next t) (ht : t.status = .faulted) :
    t = usageAfterHalt s ∨ (∃ e, fetch s = .error e ∧ t = raiseFault s e) ∨
      ∃ i e, fetch s = .ok i ∧ effect s i = .error e ∧ t = raiseFault s e := by
  rcases step_eq_next.mp h with ⟨-, rfl⟩ | ⟨-, -, hfetch | ⟨i, hi, hx⟩⟩
  · exact .inl rfl
  · exact .inr (.inl hfetch)
  · rcases exec_eq_next.mp hx with hok | ⟨e, he, rfl⟩
    · obtain ⟨-, -, hst, -⟩ := effect_common hok
      simp [ht] at hst
    · exact .inr (.inr ⟨i, e, hi, he, rfl⟩)

/-- A step that ends in OUTPUT_QUEUE_FULL is an OUT that found no room in the output queue (R133). -/
theorem full_of_step_outputQueueFull {s t : State} {r : FaultRecord} (h : step s = .next t)
    (ht : t.status = .faulted) (hr : t.fault = some r) (hcause : r.cause = .outputQueueFull) :
    (∃ a, fetch s = .ok (.out a)) ∧ admits s.cfg.oqCapacity (s.oq.length + 1) = false := by
  rcases step_ends_faulted h ht with rfl | ⟨e, he, rfl⟩ | ⟨i, e, hi, he, rfl⟩ <;> cases hr
  · cases hcause
  · exact absurd ⟨e, he, hcause⟩ not_queueFault_fetch
  · obtain ⟨⟨a, rfl⟩, hfull⟩ := full_of_queueFault_effect ⟨e, he, hcause⟩
    exact ⟨⟨a, hi⟩, hfull⟩

/-- Settles O21: a queue of `K` values has no room for one more under capacity `K`, and an unbounded queue always has. -/
theorem outputFullQueueFaults : Obligations.OutputFullQueueFaults := by
  refine ⟨fun s a k ha hk hlen => ?_, fun s a ha hc hpc => ?_, fun s t r hc h ht hr hcause => ?_⟩
  · exact exec_of_effect_error (emit_of_full ha (by simp [hk, admits, hlen]))
  · exact outputPushesValue s a ha (by rw [hc, admits]) hpc
  · obtain ⟨-, hfull⟩ := full_of_step_outputQueueFull h ht hr hcause
    simp [hc, admits] at hfull

end Sys2Proof.Machine
end

section
/-! PROOFS. Branches (43_branch.md): the three ends of a jump whose operands resolve, and the `pc` that every effect
leaves. -/

namespace Sys2Proof.Machine

/-! ## JT and JF (R135, R136) -/

section Jump
variable {s : State} {i : Instr} {c g : Operand} {taken : Word → Bool} (hi : effect s i = jumpWhen s c g taken)
  (hc : readable s c = true) (hg : readable s g = true)
include hi hc hg

/-- A taken jump goes to its target: a word that is not negative is an address (00_scope.md R8). -/
theorem exec_of_jump_taken (ht : taken (sourceValue s c) = true) (h0 : 0 ≤ (sourceValue s g).toInt) :
    exec i s = .next { s with pc := (sourceValue s g).toInt.toNat, status := .running } := by
  have haddr : IsAddress (sourceValue s g).toInt := ⟨h0, (isWord_toInt _).2⟩
  exact exec_eq_next.mpr (.inl (hi.trans (jumpWhen_eq_ok.mpr ⟨hc, hg, .inl ⟨ht, haddr, rfl⟩⟩)))

/-- A taken jump to a negative target fails the check of its target. -/
theorem exec_of_jump_negative (ht : taken (sourceValue s c) = true) (hneg : (sourceValue s g).toInt < 0) :
    exec i s = .next (faultedWith s .negativeAddress (some 1) (some (sourceValue s g).toInt)) := by
  refine exec_of_effect_error (hi.trans ?_)
  simp only [jumpWhen, resolveSrc_of_readable _ hc, resolveSrc_of_readable _ hg, ht, if_true,
    checkAddr_eq_error.mpr (.inl ⟨hneg, rfl⟩), ok_bind, error_bind]

/-- A jump that is not taken goes on three words further, whatever its target's value. -/
theorem exec_of_jump_not_taken (ht : taken (sourceValue s c) = false) (hpc : s.pc + 3 ≤ addrMax) :
    exec i s = .next { s with pc := s.pc + 3, status := .running } :=
  exec_eq_next.mpr (.inl (hi.trans (jumpWhen_eq_ok.mpr ⟨hc, hg, .inr ⟨ht, hpc, rfl⟩⟩)))

end Jump

/-- Settles O22: JT is the jump that is taken where the condition is not 0. -/
theorem jumpIfTrue : Obligations.JumpIfTrue := fun _ _ _ hc hg =>
  ⟨fun hx => exec_of_jump_taken rfl hc hg (decide_eq_true hx),
    fun hx => exec_of_jump_negative rfl hc hg (decide_eq_true hx),
    fun hx => exec_of_jump_not_taken rfl hc hg (decide_eq_false (not_not_intro hx))⟩

/-- Settles O23: JF is the jump that is taken where the condition is 0. -/
theorem jumpIfFalse : Obligations.JumpIfFalse := fun _ _ _ hc hg =>
  ⟨fun hx => exec_of_jump_taken rfl hc hg (decide_eq_true hx),
    fun hx => exec_of_jump_negative rfl hc hg (decide_eq_true hx),
    fun hx => exec_of_jump_not_taken rfl hc hg (decide_eq_false hx)⟩

/-! ## The `pc` that a step leaves (R137) -/

/-- The `pc` after an instruction that does not fault (10_state.md R22). -/
def pcAfter (s : State) : Instr → Nat
  | .add _ _ _ | .mul _ _ _ | .lt _ _ _ | .eq _ _ _ => s.pc + 4
  | .inp _    => if s.iq = [] then s.pc else s.pc + 2
  | .out _    => s.pc + 2
  | .jt c g   => if sourceValue s c ≠ 0 then (sourceValue s g).toInt.toNat else s.pc + 3
  | .jf c g   => if sourceValue s c = 0 then (sourceValue s g).toInt.toNat else s.pc + 3
  | .arb _    => s.pc + 2
  | .hlt      => s.pc

/-- A jump's effect leaves `pc` at the target where it is taken, and three words further where it is not. -/
theorem jumpWhen_pc {s t : State} {c g : Operand} {taken : Word → Bool} (h : jumpWhen s c g taken = .ok t) :
    t.pc = if taken (sourceValue s c) = true then (sourceValue s g).toInt.toNat else s.pc + 3 := by
  obtain ⟨-, -, ⟨ht, -, rfl⟩ | ⟨ht, -, rfl⟩⟩ := jumpWhen_eq_ok.mp h <;> simp [ht]

/-- Every effect leaves `pc` where its instruction goes on. -/
theorem effect_pc {s t : State} {i : Instr} (h : effect s i = .ok t) : t.pc = pcAfter s i := by
  cases i with
  | add a b d | mul a b d | lt a b d | eq a b d =>
    obtain ⟨-, -, -, -, -, r, -, rfl⟩ := storeBinary_eq_ok.mp h
    rfl
  | inp d =>
    obtain ⟨-, ⟨hq, rfl⟩ | ⟨v, vs, hq, -, -, rfl⟩⟩ := receive_eq_ok.mp h <;> simp [pcAfter, hq]
  | out a =>
    obtain ⟨-, -, -, rfl⟩ := emit_eq_ok.mp h
    rfl
  | jt c g | jf c g => simpa only [decide_eq_true_eq, pcAfter] using jumpWhen_pc h
  | arb a =>
    obtain ⟨-, -, r, -, rfl⟩ := adjustBase_eq_ok.mp h
    rfl
  | hlt =>
    cases h
    rfl

/-- The instructions but for JT and JF, by their opcodes: each of these clauses speaks of the opcodes that it names
(30_encoding.md R72). -/
theorem pcAfter_by_opcode (s : State) (i : Instr) :
    ((i.opcode.code : Int) ∈ ([1, 2, 7, 8] : List Int) → pcAfter s i = s.pc + 4) ∧
      ((i.opcode.code : Int) ∈ ([4, 9] : List Int) → pcAfter s i = s.pc + 2) ∧
      ((i.opcode.code : Int) = 3 → pcAfter s i = if s.iq = [] then s.pc else s.pc + 2) ∧
      ((i.opcode.code : Int) = 99 → pcAfter s i = s.pc) := by
  cases i <;> simp [pcAfter, Instr.opcode, Opcode.code]

/-- Settles O42: the step is the effect of the fetched instruction, whose opcode is the word's `w mod 100`, and the
effect leaves `pc` where that instruction goes on. -/
theorem pcAfterStep : Obligations.PcAfterStep := by
  intro s t hstep hst
  rcases step_cases hstep with ⟨w, e, rfl⟩ | ⟨i, hfetch, h, -⟩
  · exact absurd rfl hst
  · rw [opcode_of_fetch hfetch, hfetch, effect_pc h]
    refine ⟨?jt, ?jf, pcAfter_by_opcode s i⟩
    case jt | jf =>
      rintro c g ⟨⟩
      rfl

end Sys2Proof.Machine
end

section
/-! PROOFS. Comparison (44_compare.md): LT and EQ by the word of their condition. -/

namespace Sys2Proof.Machine

/-- The word of a test that decides a proposition is 1 where the proposition holds, and 0 otherwise. -/
theorem conditionWord_eq_ite {b : Bool} {p : Prop} [Decidable p] (h : b = true ↔ p) :
    conditionWord b = if p then 1 else 0 :=
  if_congr h rfl rfl

/-- Settles O16: LT's result is the word of the signed comparison, in either overflow mode. -/
theorem lessThanStoresCondition : Obligations.LessThanStoresCondition := by
  intro s a b d ha hb hw hc hpc
  exact exec_of_storeBinary rfl ha hb hw hc hpc (congrArg _ (conditionWord_eq_ite decide_eq_true_iff))

/-- Settles O17: EQ compares the words, and two words are equal exactly where their values are. -/
theorem equalsStoresCondition : Obligations.EqualsStoresCondition := by
  intro s a b d ha hb hw hc hpc
  have sameValue : decide (sourceValue s a = sourceValue s b) = true ↔
      (sourceValue s a).toInt = (sourceValue s b).toInt := decide_eq_true_iff.trans BitVec.toInt_inj.symm
  exact exec_of_storeBinary rfl ha hb hw hc hpc (congrArg _ (conditionWord_eq_ite sameValue))

end Sys2Proof.Machine
end

section
/-! PROOFS. The relative base and HLT (45_relbase_halt.md). -/

namespace Sys2Proof.Machine

/-- Settles O24: `WordResult` of a word's value is that word, in either mode, and ARB takes it as the new `rb`. -/
theorem adjustBaseAdds : Obligations.AdjustBaseAdds := by
  intro s a r ha hr hpc
  have result : wordResult s.cfg.overflow (s.rb.toInt + (sourceValue s a).toInt) = .ok r :=
    hr ▸ wordResult_of_toInt s.cfg.overflow r
  exact exec_arb_of_wordResult ha hpc result

/-- Settles O25: the effect of HLT is the state with its status set, and an effect is committed as it is. -/
theorem haltKeepsEverythingElse : Obligations.HaltKeepsEverythingElse := by
  intro s
  have halts : effect s .hlt = .ok (s.setStatus .halted) := rfl
  exact exec_eq_next.mpr (.inl halts)

end Sys2Proof.Machine
end

section
/-! PROOFS. The host's commands (49_host_interface.md): that they respond, what each answers, what they leave unchanged,
and that the engines of a system share nothing. -/

namespace Sys2Proof.Machine

/-! ## Every command responds (R150) -/

/-- In the invariant the loop of RUN responds or uses up its fuel, by induction on it: a live step answers, and a state
that does not stop the loop is live and in the invariant again. -/
theorem runLoop_answers {s : State} (hs : s.Inv) (hl : s.status.isLive = true) (fuel : Nat) :
    (∃ r t, runLoop fuel s = .responded r t) ∨ ∃ t, runLoop fuel s = .fuelExhausted t := by
  induction fuel generalizing s with
  | zero => exact .inr ⟨s, rfl⟩
  | succ k ih =>
    obtain ⟨t, ht⟩ := step_answers hl hs.pc_address
    rw [runLoop_succ_of_step ht]
    split
    · exact .inl ⟨_, t, rfl⟩
    · rename_i hgo
      exact ih (step_inv hs ht) (isLive_of_not_stopsRun hgo)

/-- In the invariant STEP responds: it is refused in Faulted, and any other step answers. -/
theorem command_step_responds {s : State} (hs : s.Inv) (fuel : Nat) : ∃ r t, command fuel .step s = .responded r t := by
  rcases isLive_or_terminated s with hl | hh | hf
  · obtain ⟨t, ht⟩ := step_answers hl hs.pc_address
    exact ⟨_, t, command_step_of_next fuel ht⟩
  · exact ⟨_, _, command_step_of_next fuel (step_of_halted hh)⟩
  · exact ⟨_, s, command_step_of_faulted fuel hf⟩

/-- In the invariant RUN responds, or its fuel runs out. -/
theorem command_run_answers {s : State} (hs : s.Inv) (fuel : Nat) :
    (∃ r t, command fuel .run s = .responded r t) ∨ ∃ t, command fuel .run s = .fuelExhausted t := by
  rcases isLive_or_terminated s with hl | hh | hf
  · rw [command_run_of_live hl]
    exact runLoop_answers (hs.setStatus_running hl) rfl fuel
  · exact .inl ⟨_, _, command_run_of_halted fuel hh⟩
  · exact .inl ⟨_, s, command_run_of_faulted fuel hf⟩

/-- Settles O39: STEP and RUN make steps, which answer in the invariant; every other command responds at once. -/
theorem commandResponds : Obligations.CommandResponds := by
  intro fuel c s hs
  cases c with
  | step => exact .inl (command_step_responds hs fuel)
  | run => exact (command_run_answers hs fuel).imp_right fun h => ⟨rfl, h⟩
  | reset | push | pushSeq | pushAscii | peekIn | popOut | popLast | popN | isHalted | getStatus | memPeek | memPoke
  | observe => exact .inl ⟨_, _, rfl⟩

/-! ## The input queue (R152, R153, R155) -/

section Push
variable {s : State}

/-- PUSH_SEQ of words: all of them, or none. -/
theorem hostPushSeq_map_toInt (ws : List Word) :
    hostPushSeq (ws.map BitVec.toInt) s =
      if admits s.cfg.iqCapacity (s.iq.length + ws.length) = true then (.ok, s.setIq (s.iq ++ ws))
      else (.refused .iqFull, s) := by
  rw [hostPushSeq, wordsOf_map_toInt]

/-- PUSH_SEQ looks at its values before it looks at the capacity (log entry 5). -/
theorem hostPushSeq_of_not_word {vs : List Int} (h : ∃ v ∈ vs, ¬IsWord v) :
    hostPushSeq vs s = (.refused .badValue, s) := by
  rw [hostPushSeq, wordsOf_eq_none.mpr h]

end Push

/-- Settles O51: the values are all words, and the capacity decides, or one is not, and BAD_VALUE comes first. -/
theorem pushAppendsAllOrNothing : Obligations.PushAppendsAllOrNothing := by
  refine ⟨fun s ws hfit => ?_, fun s ws hfull => ?_, fun s vs hbad _ => hostPushSeq_of_not_word hbad,
    fun s vs hbad => ⟨_, hostPushSeq_of_not_word hbad⟩, fun s v => rfl⟩
  · rw [hostPushSeq_map_toInt, if_pos hfit]
    rfl
  · rw [hostPushSeq_map_toInt, if_neg (by simp [hfull])]

/-! ## Memory (R161, R162) -/

section Poke
variable {s : State} {a v : Int}

theorem hostMemPeek_of_isAddress (ha : IsAddress a) : hostMemPeek a s = (.value (s.mem.read a.toNat), s) := if_pos ha

theorem hostMemPeek_of_not_isAddress (ha : ¬IsAddress a) : hostMemPeek a s = (.refused .badAddress, s) := if_neg ha

theorem hostMemPoke_ok (ha : IsAddress a) (hv : IsWord v) (hc : admits s.cfg.memCapacity (a.toNat + 1) = true) :
    hostMemPoke a v s = (.ok, s.setMem (s.mem.write a.toNat (BitVec.ofInt 64 v))) := by
  rw [hostMemPoke, if_pos ha, if_pos hv, if_pos hc]

theorem hostMemPoke_badAddress (ha : ¬IsAddress a) : hostMemPoke a v s = (.refused .badAddress, s) := if_neg ha

theorem hostMemPoke_badValue (ha : IsAddress a) (hv : ¬IsWord v) : hostMemPoke a v s = (.refused .badValue, s) := by
  rw [hostMemPoke, if_pos ha, if_neg hv]

theorem hostMemPoke_memCapacity (ha : IsAddress a) (hv : IsWord v)
    (hc : admits s.cfg.memCapacity (a.toNat + 1) = false) : hostMemPoke a v s = (.refused .memCapacity, s) := by
  rw [hostMemPoke, if_pos ha, if_pos hv, if_neg (by simp [hc])]

/-- A poke for which some refusal holds is refused, under the first of them. -/
theorem hostMemPoke_refused
    (h : ¬IsAddress a ∨ ¬IsWord v ∨ admits s.cfg.memCapacity (a.toNat + 1) = false) :
    ∃ why, hostMemPoke a v s = (.refused why, s) := by
  by_cases ha : IsAddress a
  · by_cases hv : IsWord v
    · have hc := (h.resolve_left (not_not.mpr ha)).resolve_left (not_not.mpr hv)
      exact ⟨_, hostMemPoke_memCapacity ha hv hc⟩
    · exact ⟨_, hostMemPoke_badValue ha hv⟩
  · exact ⟨_, hostMemPoke_badAddress ha⟩

end Poke

/-- A natural number that is no more than `ADDR_MAX` is an address (00_scope.md R8). -/
theorem isAddress_natCast {n : Nat} (h : n ≤ addrMax) : IsAddress n := ⟨Int.natCast_nonneg n, Int.ofNat_le.mpr h⟩

/-- A peek of an address given as a natural number. -/
theorem hostMemPeek_natCast {x : Nat} (hx : x ≤ addrMax) (s : State) :
    hostMemPeek x s = (.value (s.mem.read x), s) := hostMemPeek_of_isAddress (isAddress_natCast hx)

/-- An accepted poke of a word's value at an address given as a natural number. -/
theorem hostMemPoke_natCast {s : State} {a : Nat} (ha : a ≤ addrMax) (v : Word)
    (hc : admits s.cfg.memCapacity (a + 1) = true) :
    hostMemPoke a v.toInt s = (.ok, s.setMem (s.mem.write a v)) := by
  rw [hostMemPoke_ok (isAddress_natCast ha) (isWord_toInt v) hc, BitVec.ofInt_toInt, Int.toNat_natCast]

/-- Settles O54: a peek after an accepted poke reads a written memory, and each refusal is a branch of the command. -/
theorem pokeThenPeek : Obligations.PokeThenPeek := by
  refine ⟨fun s a x v hwf ha hx hc => ?_, fun s x hx => hostMemPeek_natCast hx s,
    fun s x => hostMemPeek_of_not_isAddress, fun s a v ha _ _ => hostMemPoke_badAddress ha,
    fun s a v ha hv _ => hostMemPoke_badValue ha hv, fun s a v => hostMemPoke_memCapacity,
    fun s a v => hostMemPoke_refused⟩
  refine ⟨_, hostMemPoke_natCast ha v hc, rfl, ?_⟩
  rw [hostMemPeek_natCast hx, State.setMem_mem, Memory.read_write hwf]

/-! ## The output queue (R156, R157, R158) -/

section Pop
variable {s : State} {v : Word} {vs : List Word}

theorem hostPopOut_of_cons (h : s.oq = v :: vs) : hostPopOut s = (.value v, s.setOq vs) := by
  rw [hostPopOut, h]

theorem hostPopLast_of_append (h : s.oq = vs ++ [v]) : hostPopLast s = (.value v, s.setOq []) := by
  rw [hostPopLast, h, List.getLast?_concat]

/-- A POP_N of no more values than the output queue holds takes its front. -/
theorem hostPopN_of_append {ws : List Word} (h : s.oq = vs ++ ws) :
    hostPopN vs.length s = (.list vs, s.setOq ws) := by
  have enough : (vs.length : Int).toNat ≤ s.oq.length := by simp [h]
  rw [hostPopN, if_neg (by omega), if_pos enough, Int.toNat_natCast, h, List.take_left, List.drop_left]

theorem hostPopN_of_length_lt {n : Nat} (h : s.oq.length < n) : hostPopN n s = (.notEnough, s) := by
  rw [hostPopN, if_neg (by omega), if_neg (by omega)]

end Pop

/-- Settles O53: the pops by what the output queue holds. -/
theorem popsTakeFromOutput : Obligations.PopsTakeFromOutput := by
  refine ⟨fun s h => ⟨?_, ?_⟩, fun s v vs => hostPopOut_of_cons, fun s v vs => hostPopLast_of_append,
    fun s vs ws => hostPopN_of_append, fun s n => hostPopN_of_length_lt, fun s n hn => if_pos hn⟩
  · rw [hostPopOut, h]
  · rw [hostPopLast, h, List.getLast?_nil]

/-- Settles O55: PEEK_IN by the front of the input queue; the other three answer fields of the state. -/
theorem queriesAnswerState : Obligations.QueriesAnswerState := by
  refine ⟨fun s => ?_, fun s => rfl, fun s => rfl, fun s => rfl⟩
  rw [hostPeekIn]
  cases s.iq with
  | nil => rfl
  | cons v vs => rfl

/-! ## What a command leaves unchanged (R151, R167) -/

/-- A response that refuses its command (R151, R165). -/
def Response.IsRefusal (r : Response) : Prop := (∃ why, r = .refused why) ∨ ∃ st f, r = .refusedFaulted st f

@[simp] theorem not_isRefusal_ok : ¬Response.IsRefusal .ok := by simp [Response.IsRefusal]
@[simp] theorem not_isRefusal_value (v : Word) : ¬Response.IsRefusal (.value v) := by simp [Response.IsRefusal]
@[simp] theorem not_isRefusal_list (vs : List Word) : ¬Response.IsRefusal (.list vs) := by simp [Response.IsRefusal]
@[simp] theorem not_isRefusal_status (st : Status) (f : Option FaultRecord) : ¬Response.IsRefusal (.status st f) := by
  simp [Response.IsRefusal]

/-- A command's answer that leaves the state as it is, or is no refusal and changes the queues and memory at most. -/
def KeepsRegisters (s : State) (p : Response × State) : Prop :=
  p.2 = s ∨ ¬p.1.IsRefusal ∧ ∃ iq oq mem, p.2 = { s with iq := iq, oq := oq, mem := mem }

section KeepsRegisters
variable (s : State)

theorem hostPushSeq_keepsRegisters (vs : List Int) : KeepsRegisters s (hostPushSeq vs s) := by
  unfold hostPushSeq
  split
  · exact .inl rfl
  · split
    · exact .inr ⟨not_isRefusal_ok, _, _, _, rfl⟩
    · exact .inl rfl

theorem hostPushAscii_keepsRegisters (cs : List Char) : KeepsRegisters s (hostPushAscii cs s) := by
  unfold hostPushAscii
  split
  · exact .inl rfl
  · exact hostPushSeq_keepsRegisters s _

theorem hostPeekIn_keepsRegisters : KeepsRegisters s (hostPeekIn s) := by
  unfold hostPeekIn
  split <;> exact .inl rfl

theorem hostPopOut_keepsRegisters : KeepsRegisters s (hostPopOut s) := by
  unfold hostPopOut
  split
  · exact .inl rfl
  · exact .inr ⟨not_isRefusal_value _, _, _, _, rfl⟩

theorem hostPopLast_keepsRegisters : KeepsRegisters s (hostPopLast s) := by
  unfold hostPopLast
  split
  · exact .inl rfl
  · exact .inr ⟨not_isRefusal_value _, _, _, _, rfl⟩

theorem hostPopN_keepsRegisters (n : Int) : KeepsRegisters s (hostPopN n s) := by
  unfold hostPopN
  split
  · exact .inl rfl
  · split
    · exact .inr ⟨not_isRefusal_list _, _, _, _, rfl⟩
    · exact .inl rfl

theorem hostMemPeek_keepsRegisters (a : Int) : KeepsRegisters s (hostMemPeek a s) := by
  unfold hostMemPeek
  split <;> exact .inl rfl

/-- A poke is refused, or writes memory. -/
theorem hostMemPoke_keepsRegisters (a v : Int) : KeepsRegisters s (hostMemPoke a v s) := by
  by_cases h : ¬IsAddress a ∨ ¬IsWord v ∨ admits s.cfg.memCapacity (a.toNat + 1) = false
  · obtain ⟨why, hp⟩ := hostMemPoke_refused h
    exact hp ▸ .inl rfl
  · simp only [not_or, not_not, Bool.not_eq_false] at h
    obtain ⟨ha, hv, hc⟩ := h
    exact hostMemPoke_ok ha hv hc ▸ .inr ⟨not_isRefusal_ok, _, _, _, rfl⟩

end KeepsRegisters

section Refusal
variable {s t : State} {r : Response} {fuel : Nat} {c : Command}

theorem KeepsRegisters.eq_of_isRefusal {p : Response × State} (h : KeepsRegisters s p) (hr : p.1.IsRefusal) :
    p.2 = s := h.resolve_right fun ⟨hn, _⟩ => hn hr

theorem KeepsRegisters.registers_eq {p : Response × State} (h : KeepsRegisters s p) :
    p.2.status = s.status ∧ p.2.fault = s.fault ∧ p.2.pc = s.pc ∧ p.2.rb = s.rb ∧ p.2.cfg = s.cfg := by
  rcases h with heq | ⟨-, iq, oq, mem, heq⟩ <;> rw [heq] <;> exact ⟨rfl, rfl, rfl, rfl, rfl⟩

/-- Every command but STEP, RUN and RESET responds at once and keeps the registers. -/
theorem command_keepsRegisters (fuel : Nat) (s : State) (hstep : c ≠ .step) (hrun : c ≠ .run)
    (hreset : ∀ image, c ≠ .reset image) : ∃ p, command fuel c s = respond p ∧ KeepsRegisters s p := by
  cases c with
  | step => exact absurd rfl hstep
  | run => exact absurd rfl hrun
  | reset image => exact absurd rfl (hreset image)
  | push v => exact ⟨_, rfl, hostPushSeq_keepsRegisters s [v]⟩
  | pushSeq vs => exact ⟨_, rfl, hostPushSeq_keepsRegisters s vs⟩
  | pushAscii cs => exact ⟨_, rfl, hostPushAscii_keepsRegisters s cs⟩
  | peekIn => exact ⟨_, rfl, hostPeekIn_keepsRegisters s⟩
  | popOut => exact ⟨_, rfl, hostPopOut_keepsRegisters s⟩
  | popLast => exact ⟨_, rfl, hostPopLast_keepsRegisters s⟩
  | popN n => exact ⟨_, rfl, hostPopN_keepsRegisters s n⟩
  | memPeek a => exact ⟨_, rfl, hostMemPeek_keepsRegisters s a⟩
  | memPoke a v => exact ⟨_, rfl, hostMemPoke_keepsRegisters s a v⟩
  | isHalted | getStatus | observe => exact ⟨_, rfl, .inl rfl⟩

/-- A STEP that responds is refused, leaving the state as it is, or responds a status and record (R165). -/
theorem command_step_response (h : command fuel .step s = .responded r t) :
    t = s ∨ r = .status t.status t.fault := by
  change hostStep s = _ at h
  unfold hostStep at h
  split at h
  · cases h
    exact .inl rfl
  · split at h
    · cases h
      exact .inr rfl
    · cases h
    · cases h

/-- A RUN that responds is refused, leaving the state as it is, or responds a status and record (R166). -/
theorem command_run_response (h : command fuel .run s = .responded r t) : t = s ∨ r = .status t.status t.fault := by
  by_cases hs : s.status = .faulted
  · cases (command_run_of_faulted fuel hs).symm.trans h
    exact .inl rfl
  · exact .inr (run_response hs h).1

/-- A refused RESET changes nothing (R164). -/
theorem hostReset_of_isRefusal {image : List Int} (hr : (hostReset image s).1.IsRefusal) :
    (hostReset image s).2 = s := by
  unfold hostReset at hr ⊢
  split at hr
  · rfl
  · split at hr
    · exact absurd hr not_isRefusal_ok
    · rename_i hn
      rw [if_neg hn]

/-- A refused command changes nothing (R151). -/
theorem command_of_isRefusal (h : command fuel c s = .responded r t) (hr : r.IsRefusal) : t = s := by
  have notStatus : r ≠ .status t.status t.fault := fun heq => not_isRefusal_status _ _ (heq ▸ hr)
  rcases eq_or_ne c .step with rfl | hstep
  · exact (command_step_response h).resolve_right notStatus
  rcases eq_or_ne c .run with rfl | hrun
  · exact (command_run_response h).resolve_right notStatus
  by_cases hreset : ∃ image, c = .reset image
  · obtain ⟨image, rfl⟩ := hreset
    cases h
    exact hostReset_of_isRefusal hr
  · obtain ⟨p, hp, hkeeps⟩ := command_keepsRegisters fuel s hstep hrun (not_exists.mp hreset)
    cases hp.symm.trans h
    exact hkeeps.eq_of_isRefusal hr

end Refusal

/-- Settles O56: a refused command changes nothing, and one that responds at once keeps the registers. -/
theorem hostCommandsKeepRegisters : Obligations.HostCommandsKeepRegisters := by
  intro fuel c s t r h
  refine ⟨command_of_isRefusal h, fun hstep hrun hreset => ?_⟩
  obtain ⟨p, hp, hkeeps⟩ := command_keepsRegisters fuel s hstep hrun hreset
  cases hp.symm.trans h
  exact hkeeps.registers_eq

/-! ## Several engines (R170) -/

/-- The state in which an outcome leaves an engine that was in `s`. -/
def HostOutcome.stateAfter (s : State) : HostOutcome → State
  | .responded _ t   => t
  | .fuelExhausted t => t
  | .stopped _       => s
  | .declined _      => s

/-- A command on channel `k` is the command on engine `k`, whose state alone it replaces. -/
theorem systemCommand_eq {fuel k : Nat} {c : Command} {sys : System} {s : State} (h : sys[k]? = some s) :
    systemCommand fuel k c sys = some (command fuel c s, sys.set k ((command fuel c s).stateAfter s)) := by
  obtain ⟨hk, hget⟩ := List.getElem?_eq_some_iff.mp h
  have unchanged : sys.set k s = sys := hget ▸ List.set_getElem_self hk
  simp only [systemCommand, h]
  cases command fuel c s with
  | responded r t => rfl
  | fuelExhausted t => rfl
  | stopped f => rw [HostOutcome.stateAfter, unchanged]
  | declined e => rw [HostOutcome.stateAfter, unchanged]

/-- Settles O59: the one thing a command on a channel does is to replace the state of the engine there. -/
theorem instancesShareNothing : Obligations.InstancesShareNothing := by
  intro fuel k c sys sys' o h
  cases hk : sys[k]? with
  | none =>
    rw [systemCommand, hk] at h
    cases h
  | some s =>
    cases (systemCommand_eq hk).symm.trans h
    refine ⟨⟨s, rfl, rfl, fun r t ho => ?_⟩, List.length_set, fun j hj => List.getElem?_set_ne hj.symm⟩
    obtain ⟨hlt, -⟩ := List.getElem?_eq_some_iff.mp hk
    rw [ho, List.getElem?_set_self hlt]
    rfl

end Sys2Proof.Machine
end

section
/-! PROOFS. Exceptions (60_exceptions.md): what a step that ends Faulted has changed, and what its record names. -/

namespace Sys2Proof.Machine

theorem ne_halted_of_isLive {x : Status} (h : x.isLive = true) : x ≠ .halted := by
  rintro rfl
  cases h

/-- No effect ends Faulted, so an instruction that does took the fault of its effect (40_execution_cycle.md R106). -/
theorem exec_ends_faulted {i : Instr} {s t : State} (h : exec i s = .next t) (ht : t.status = .faulted) :
    ∃ e, t = raiseFault s e := by
  rcases exec_eq_next.mp h with hok | ⟨e, -, rfl⟩
  · obtain ⟨-, -, hst, -⟩ := effect_common hok
    simp [ht] at hst
  · exact ⟨e, rfl⟩

/-- A step that ends Faulted took a fault: with no word where it fetched none, in Halted (10_state.md R26), and with the
word at `pc` in a live status. -/
theorem step_takes_fault {s t : State} (h : step s = .next t) (ht : t.status = .faulted) :
    ∃ e, t = takeFault s (if s.status = .halted then none else some (s.mem.read s.pc)) e := by
  rcases step_eq_next.mp h with ⟨hhalted, rfl⟩ | ⟨hlive, -, hattempt⟩
  · rw [if_pos hhalted]
    exact ⟨_, rfl⟩
  · rw [if_neg (ne_halted_of_isLive hlive)]
    rcases hattempt with ⟨e, -, rfl⟩ | ⟨i, -, hexec⟩
    · exact ⟨e, rfl⟩
    · exact exec_ends_faulted hexec ht

/-- Settles O40: the step took a fault, which sets the status and the record alone. -/
theorem faultsArePrecise : Obligations.FaultsArePrecise := by
  intro s t h ht
  obtain ⟨e, rfl⟩ := step_takes_fault h ht
  exact ⟨_, rfl, rfl, rfl⟩

end Sys2Proof.Machine
end

section
/-! PROOFS. RESET and construction (70_reset_and_hazards.md), and PUSH_ASCII (49_host_interface.md): each in terms of the
words that its integers or characters are. -/

namespace Sys2Proof.Machine

/-- Integers that are all words are the values of words (00_scope.md R7). -/
theorem exists_eq_map_toInt {vs : List Int} (h : ∀ v ∈ vs, IsWord v) : ∃ ws : List Word, vs = ws.map BitVec.toInt := by
  cases hws : wordsOf vs with
  | some ws => exact ⟨ws, eq_map_of_wordsOf hws⟩
  | none =>
    obtain ⟨v, hv, hn⟩ := wordsOf_eq_none.mp hws
    exact absurd (h v hv) hn

/-! ## RESET (R164, R200) -/

section Reset
variable {s : State} {image : List Int}

/-- RESET with words: they are loaded where they fit the address space and the capacity. -/
theorem hostReset_map_toInt (ws : List Word) :
    hostReset (ws.map BitVec.toInt) s =
      if ws.length ≤ addrMax + 1 ∧ admits s.cfg.memCapacity ws.length = true then (.ok, resetWith s ws)
      else (.refused .badImage, s) := by
  rw [hostReset, wordsOf_map_toInt]

theorem hostReset_of_not_word (h : ∃ v ∈ image, ¬IsWord v) : hostReset image s = (.refused .badImage, s) := by
  rw [hostReset, wordsOf_eq_none.mpr h]

/-- A valid image is accepted: it is the values of words, and those are loaded. -/
theorem hostReset_of_valid (hw : ∀ v ∈ image, IsWord v) (hl : image.length ≤ addrMax + 1)
    (hc : admits s.cfg.memCapacity image.length = true) :
    ∃ ws, image = ws.map BitVec.toInt ∧ hostReset image s = (.ok, resetWith s ws) := by
  obtain ⟨ws, rfl⟩ := exists_eq_map_toInt hw
  rw [List.length_map] at hl hc
  exact ⟨ws, rfl, (hostReset_map_toInt ws).trans (if_pos ⟨hl, hc⟩)⟩

/-- An image that is not valid is refused: not all of it is words, or the words do not fit. -/
theorem hostReset_of_not_valid
    (h : ¬((∀ v ∈ image, IsWord v) ∧ image.length ≤ addrMax + 1 ∧ admits s.cfg.memCapacity image.length = true)) :
    hostReset image s = (.refused .badImage, s) := by
  by_cases hw : ∀ v ∈ image, IsWord v
  · obtain ⟨ws, rfl⟩ := exists_eq_map_toInt hw
    rw [List.length_map] at h
    exact (hostReset_map_toInt ws).trans (if_neg fun hfit => h ⟨hw, hfit⟩)
  · exact hostReset_of_not_word (by simpa only [not_forall, exists_prop] using hw)

/-- After a reset memory holds the loaded values from address 0, and 0 beyond them (20_memory.md R46). -/
theorem resetWith_read_toInt (ws : List Word) (x : Nat) :
    ((resetWith s ws).mem.read x).toInt = (ws.map BitVec.toInt).getD x 0 := by
  rw [resetWith_mem, Memory.read_ofWords, if_pos (Nat.zero_le x), Nat.sub_zero]
  exact (List.getD_map ws 0 BitVec.toInt).symm

end Reset

/-- Settles O50: the image is the values of words, which `resetWith` loads, or it is refused. -/
theorem resetLoadsImage : Obligations.ResetLoadsImage := by
  refine ⟨fun s image hw hl hc => ?_, fun s image => hostReset_of_not_valid⟩
  obtain ⟨ws, rfl, hr⟩ := hostReset_of_valid hw hl hc
  exact ⟨_, hr, rfl, rfl, rfl, rfl, rfl, rfl, rfl, resetWith_read_toInt ws⟩

/-! ## Construction (R201) -/

section Construct
variable {cfg : Config} {image : List Int} {s : State}

/-- A new engine, before its image is loaded, is in the invariant: it is a reset with the empty image (log entry 4). -/
theorem newEngine_inv (cfg : Config) : { State.reset with cfg := cfg }.Inv :=
  resetWith_inv (s := { State.reset with cfg := cfg }) (ws := []) (Nat.zero_le _) (admits_zero _)

theorem construct_eq_some : construct cfg image = some s ↔ hostReset image { State.reset with cfg := cfg } = (.ok, s) := by
  unfold construct
  split
  · rename_i hr
    simp [hr]
  · rename_i hr
    simpa using hr s

/-- A constructed engine is in the invariant: RESET keeps that of the new engine. -/
theorem construct_inv (h : construct cfg image = some s) : s.Inv := by
  have hinv := hostReset_inv (newEngine_inv cfg) image
  rwa [construct_eq_some.mp h] at hinv

end Construct

/-- Settles O37: construction is a RESET of the new engine, which accepts every valid image and keeps the parameters. -/
theorem resetMeetsInvariant : Obligations.ResetMeetsInvariant := by
  refine ⟨newEngine_inv Config.default, fun cfg image s => construct_inv, fun cfg image hw hl hc => ?_⟩
  obtain ⟨ws, -, hr⟩ := hostReset_of_valid (s := { State.reset with cfg := cfg }) hw hl hc
  have hsome := construct_eq_some.mpr hr
  exact ⟨_, hsome, rfl, construct_inv hsome⟩

/-! ## PUSH_ASCII (R154) -/

/-- The codes of ASCII characters are words: the values of the characters' numbers as 64 bits. -/
theorem map_toNat_eq_map_toInt {cs : List Char} (h : ∀ c ∈ cs, c.toNat ≤ 127) :
    (cs.map fun c => (c.toNat : Int)) = (cs.map fun c => BitVec.ofNat 64 c.toNat).map BitVec.toInt := by
  rw [List.map_map]
  refine List.map_congr_left fun c hc => ?_
  have hle := h c hc
  have hword : IsWord c.toNat := by
    simp only [IsWord, wordMin, wordMax]
    omega
  rw [Function.comp_apply, ← BitVec.ofInt_natCast, toInt_ofInt_of_isWord hword]

section PushAscii
variable {s : State} {cs : List Char}

theorem hostPushAscii_of_ascii (h : ∀ c ∈ cs, c.toNat ≤ 127) :
    hostPushAscii cs s = hostPushSeq (cs.map fun c => (c.toNat : Int)) s := by
  rw [hostPushAscii, asciiCodes_eq_some h]

/-- PUSH_ASCII looks at its characters before it looks at the capacity (log entry 5). -/
theorem hostPushAscii_of_not_ascii (h : ∃ c ∈ cs, 127 < c.toNat) : hostPushAscii cs s = (.refused .notAscii, s) := by
  rw [hostPushAscii, asciiCodes_eq_none h]

end PushAscii

/-- Settles O52: the characters are all ASCII, and PUSH_SEQ decides, or one is not, and NOT_ASCII comes first. -/
theorem pushAsciiPushesCodes : Obligations.PushAsciiPushesCodes := by
  refine ⟨fun s cs => hostPushAscii_of_ascii, fun s cs h hfit => ?_, fun s cs h _ => hostPushAscii_of_not_ascii h,
    fun s cs h => ⟨_, hostPushAscii_of_not_ascii h⟩⟩
  rw [hostPushAscii_of_ascii h, map_toNat_eq_map_toInt h, hostPushSeq_map_toInt, if_pos (by rwa [List.length_map])]
  rfl

end Sys2Proof.Machine
end
